-- ==== Sys2Proof/Word.lean ====
section
/-! DEFINITION. The word types of the PCE (spec 00_scope, "Fixed (not parameters)"): 64-bit command words, 32-bit
registers, 16-bit image dimensions, bytes. -/

namespace Sys2Proof

/-- A channel byte, a table entry, a byte of pixel memory. -/
abbrev Byte := BitVec 8

/-- An image dimension or a window dimension (the two halves of a `P16` operand). -/
abbrev Half := BitVec 16

/-- A register, an address, a Q15.16 word (R13, R21). -/
abbrev Word := BitVec 32

/-- A command as the host presents it (R90, R92). -/
abbrev CommandWord := BitVec 64

end Sys2Proof
end

