-- ==== Sys2Proof/Config.lean ====
section
/-! DEFINITION. What an implementation of the PCE fixes (R9) and the free values: constants with no body for what the
spec leaves open. No proof can see a free value, so a claim holds whatever it is. -/

namespace Sys2Proof

/-- The implementation parameters of R9 that a result can depend on. They are held in `State`, never change, and so
every statement over all states covers every implementation. NUM_WORKERS is not among them: 93 U9. -/
structure Params where
  /-- `MEM_BYTES`: the pixel memory has the addresses `0 .. memBytes - 1`. -/
  memBytes : Nat
  /-- `SCRATCH_PIXELS`: capacity of the working copy, in pixels. -/
  scratchPixels : Nat
  deriving DecidableEq, Repr

/-- The defaults of R9. -/
def Params.standard : Params := { memBytes := 2 ^ 32, scratchPixels := 65535 * 65535 }

/-- The constraints of R9. -/
def Params.legal (p : Params) : Bool :=
  decide (1 ≤ p.memBytes) && decide (p.memBytes ≤ 2 ^ 32) && decide (1 ≤ p.scratchPixels)

/-- The identification word, R1 and R21: "UMX" and the version 7. -/
def Config.idWord : Word := 0x554D5807#32

/-- What a byte of pixel memory reads as that nothing has written. DESIGN CHOICE, log 4. -/
def Config.unlistedByte : Byte := 0#8

/-- FREE VALUE (log 8): what the blur collaborator answers for lane `lane` of pixel `(x, y)`, where its contract (R203)
does not fix the answer. It depends on the five arguments of `BLUR` and nothing else (P1); the image is given as the
tightly packed bytes of the working copy. -/
opaque Config.freeBlurByte (width height windowWidth windowHeight : Nat) (image : List Byte) (x y lane : Nat) : Byte

/-- FREE VALUE (log 9): the byte an `APPLY` with partially overlapping buffers leaves at `addr` (R71: UNPREDICTABLE);
`draw` numbers the occurrence. -/
opaque Config.freeOverlapByte (draw addr : Nat) : Byte

/-- FREE VALUE (log 12): whether the new byte at `addr` had landed when reset cut the command short (R272). -/
opaque Config.freeResetLands (draw addr : Nat) : Bool

/-- FREE VALUE (log 5): the unspecified contents of the table before its first rebuild (R31, 93 U3). -/
opaque Config.freeLutByte (index : Nat) : Byte

/-- FREE VALUE (log 7): an entry of the logarithmic table for a base word that is not legal; R151 gives the formula for
legal bases only, and no register can hold another (R23). -/
opaque Config.freeLogByte (base delta : Word) (index : Nat) : Byte

end Sys2Proof
end

