-- ==== Sys2Proof/Machine/State.lean ====
section
/-! DEFINITION. The state of the machine: the registers and the lookup table of R20 and R21, the pixel memory it shares
with the host (R60), the two ports and the reset input (R90, R270), the implementation parameters (R9), and the counter of
free values. Plain data throughout. -/

namespace Sys2Proof.Machine

/-- The three strategies, R25. Code 3 "is not a strategy and can never be stored", so no value stands for it. -/
inductive Strategy where
  /-- 0: logarithmic correction, global. -/
  | log
  /-- 1: flat-field correction, local. -/
  | flatField
  /-- 2: contrast enhancement (KSI), local. -/
  | contrast
  deriving DecidableEq, Repr

/-- The four error kinds of R241. They are reported in responses and never stop the machine. -/
inductive ErrorCode where
  /-- 1: an operand out of range, at a configuration setter (R242). -/
  | configuration
  /-- 2: the two buffers of a local `APPLY` differ in size (R243). -/
  | dimensionMismatch
  /-- 3: a descriptor `APPLY` cannot use (R244). -/
  | bufferDescriptor
  /-- 4: an illegal command (R245). -/
  | illegalCommand
  deriving DecidableEq, Repr

/-- `x[STATUS]`, R21 and R36, held as its fields; the other bits read as zero (93 U13, log 19). -/
structure Status where
  /-- Bit 0. -/
  dirty : Bool
  /-- Bit 4. -/
  eCfg : Bool
  /-- Bit 5. -/
  eDim : Bool
  /-- Bit 6. -/
  eDesc : Bool
  /-- Bit 7. -/
  eIll : Bool
  /-- Bits 11:8, LASTERR. -/
  lastErr : BitVec 4
  deriving DecidableEq, Repr

/-- The lookup table, 256 bytes (R30). -/
abbrev Lut := Vector Byte 256

/-- The pixel memory: the bytes that differ from what an unlisted address reads as, addresses strictly rising
(`Memory.wf`). -/
abbrev Memory := List Host.Cell

/-- The response to a command, R90 and R102. -/
structure Response where
  /-- The 8-bit status code of R241. -/
  status : Byte
  /-- The 32-bit data. -/
  data : Word
  deriving DecidableEq, Repr

/-- What the host does to the machine (log 1), one move at a time, between commands but for `resetDuring`. -/
inductive HostMove where
  /-- Present a command word at the command port (R90). -/
  | command (w : CommandWord)
  /-- Write a byte of pixel memory, which the host owns between commands (R8, R72). -/
  | memWrite (addr : Nat) (value : Byte)
  /-- Assert reset while no command executes (R270). -/
  | reset
  /-- Present a command word and assert reset while it executes (R272). -/
  | resetDuring (w : CommandWord)
  deriving DecidableEq, Repr

/-- Why the machine stops. -/
inductive Fault where
  /-- Raised by a HOST move that writes a byte of pixel memory at an address that is not below MEM_BYTES (R60); no
  command raises it. Safe: the machine stops where the spec gives the access no meaning. -/
  | noSuchAddress
  deriving DecidableEq, Repr

/-- Why an instruction has no meaning. -/
inductive Refusal where
  /-- Raised by an arm of `exec` that has no meaning yet; no arm is left in that state. Safe: it stops. -/
  | notModelled (mnemonic : String)
  deriving DecidableEq, Repr

/-- A buffer descriptor (R24) with its fields read as numbers. -/
structure Descriptor where
  /-- Byte address of pixel (0, 0), lane 0. -/
  base : Nat
  /-- Width in pixels. -/
  width : Nat
  /-- Height in rows. -/
  height : Nat
  /-- Row byte length. -/
  stride : Nat
  deriving DecidableEq, Repr

/-- One channel byte of an image: lane `c` of pixel `(x, y)`. -/
structure Site where
  /-- Column. -/
  x : Nat
  /-- Row. -/
  y : Nat
  /-- Lane. -/
  c : Nat
  deriving DecidableEq, Repr

end Sys2Proof.Machine

namespace Sys2Proof.Machine

/-- The whole state. `ID` has no field: it is a hard-wired constant of the register read (log 15). -/
structure State where
  /-- The implementation parameters of R9; nothing writes them (log 3). -/
  params : Params
  /-- 0x01 `STATUS`. -/
  status : Status
  /-- 0x02 `RBCNT`. -/
  rbcnt : Word
  /-- 0x03 `STRAT`. -/
  strat : Strategy
  /-- 0x04 `SCOPE`, the three bits of the lane mask. -/
  scope : BitVec 3
  /-- 0x05 `BASE`. -/
  base : Word
  /-- 0x06 `DELTA`. -/
  delta : Word
  /-- 0x07 `CA`. -/
  ca : Word
  /-- 0x08 `CB`. -/
  cb : Word
  /-- 0x09 `WIN`. -/
  win : Word
  /-- 0x0A `DSTBASE`. -/
  dstBase : Word
  /-- 0x0B `DSTDIM`. -/
  dstDim : Word
  /-- 0x0C `DSTSTRIDE`. -/
  dstStride : Word
  /-- 0x0D `SRCBASE`. -/
  srcBase : Word
  /-- 0x0E `SRCDIM`. -/
  srcDim : Word
  /-- 0x0F `SRCSTRIDE`. -/
  srcStride : Word
  /-- The table; `none` while its contents are unspecified (R31). -/
  lut : Option Lut
  /-- The pixel memory. -/
  mem : Memory
  /-- The host's moves still to come, the next one first. -/
  inbox : List HostMove
  /-- The responses produced, oldest first. -/
  responses : List Response
  /-- The model's own: numbers the draws of free values (log 10). -/
  freeIx : Nat
  deriving DecidableEq, Repr

/-- The machine right after reset, R271, with the default parameters, nothing in memory and nothing at the ports. -/
def State.reset : State where
  params := Params.standard
  status := { dirty := true, eCfg := false, eDim := false, eDesc := false, eIll := false, lastErr := 0#4 }
  rbcnt := 0x00000000#32
  strat := .log
  scope := 7#3
  base := 0x00020000#32
  delta := 0x00000000#32
  ca := 0x00000000#32
  cb := 0x00000000#32
  win := 0x00010001#32
  dstBase := 0x00000000#32
  dstDim := 0x00000000#32
  dstStride := 0x00000000#32
  srcBase := 0x00000000#32
  srcDim := 0x00000000#32
  srcStride := 0x00000000#32
  lut := none
  mem := []
  inbox := []
  responses := []
  freeIx := 0

end Sys2Proof.Machine
end

