-- ==== Sys2Proof/Machine/Flags.lean ====
section
/-! DEFINITION. The flags: the five flag bits and LASTERR of `x[STATUS]` (R36), how each is set and cleared, and the word
`RDREG` reads (R21). There are no arithmetic condition codes. -/

namespace Sys2Proof.Machine

/-- `x[STATUS]` as a 32-bit word: `[0]` DIRTY, `[3:1]` zero, `[4]` E_CFG, `[5]` E_DIM, `[6]` E_DESC, `[7]` E_ILL,
`[11:8]` LASTERR, `[31:12]` zero (R21). -/
def Status.word (st : Status) : Word :=
  0#20 ++ st.lastErr ++ BitVec.ofBool st.eIll ++ BitVec.ofBool st.eDesc ++ BitVec.ofBool st.eDim ++
    BitVec.ofBool st.eCfg ++ 0#3 ++ BitVec.ofBool st.dirty

/-- `DIRTY <- 1` (R32). -/
def Status.markDirty (st : Status) : Status := { st with dirty := true }

/-- `DIRTY <- 0`, done by the rebuild step alone (R160). -/
def Status.clearDirty (st : Status) : Status := { st with dirty := false }

/-- The status code of an error, R241. -/
def ErrorCode.code : ErrorCode → Nat
  | .configuration => 1
  | .dimensionMismatch => 2
  | .bufferDescriptor => 3
  | .illegalCommand => 4

/-- Recording an error, R246: the sticky flag of the code is set and LASTERR is the code; nothing else changes. -/
def Status.record (st : Status) (e : ErrorCode) : Status :=
  match e with
  | .configuration => { st with eCfg := true, lastErr := 1#4 }
  | .dimensionMismatch => { st with eDim := true, lastErr := 2#4 }
  | .bufferDescriptor => { st with eDesc := true, lastErr := 3#4 }
  | .illegalCommand => { st with eIll := true, lastErr := 4#4 }

/-- `x[STATUS][7:4] <- 0`, `x[STATUS][11:8] <- 0` (R232); DIRTY is not touched. -/
def Status.clearErrors (st : Status) : Status :=
  { st with eCfg := false, eDim := false, eDesc := false, eIll := false, lastErr := 0#4 }

end Sys2Proof.Machine
end

