-- ==== Sys2Proof/Syntax.lean ====
section
/-! DEFINITION. The 19 commands of the PCE (R96), one constructor per row of spec/opcode_table.json, and the four operand
formats (R93). -/

namespace Sys2Proof

/-- The operand formats of R93. -/
inductive Format where
  /-- No operand: all of `imm` must be zero. -/
  | z
  /-- One 32-bit value. -/
  | i32
  /-- A pair of 16-bit values, `lo` in `imm[15:0]` and `hi` in `imm[31:16]`. -/
  | p16
  /-- One 8-bit index in `imm[7:0]`; the other bits of `imm` must be zero. -/
  | i8
  deriving DecidableEq, Repr

/-- The commands. A `P16` command's operands stand in the order the assembler writes them: `lo` first (R100). -/
inductive Instr where
  /-- Select the strategy (R121). -/
  | setstrat (v : Word)
  /-- Select the lanes a correction writes (R122). -/
  | setscope (v : Word)
  /-- Set the logarithm base (R123). -/
  | setbase (v : Word)
  /-- Set the brightness shift (R124). -/
  | setdelta (v : Word)
  /-- Set the contrast (R125). -/
  | seta (v : Word)
  /-- Set the offset (R126). -/
  | setb (v : Word)
  /-- Set the blur window (R127). -/
  | setwin (ww wh : Half)
  /-- Destination base address (R141). -/
  | setdstbase (v : Word)
  /-- Destination width and height (R142). -/
  | setdstdim (w h : Half)
  /-- Destination row byte length (R143). -/
  | setdststride (v : Word)
  /-- Source base address (R144). -/
  | setsrcbase (v : Word)
  /-- Source width and height (R145). -/
  | setsrcdim (w h : Half)
  /-- Source row byte length (R146). -/
  | setsrcstride (v : Word)
  /-- Set the dirty flag (R161). -/
  | markdirty
  /-- Rebuild the table if it is stale (R162). -/
  | fresh
  /-- Read one table entry (R163). -/
  | lutrd (idx : Byte)
  /-- Read one register (R231). -/
  | rdreg (idx : Byte)
  /-- Clear the recorded errors (R232). -/
  | clrerr
  /-- Run the selected correction (R181). -/
  | apply
  deriving DecidableEq, Repr

/-- A row of the opcode map R96. -/
structure Row where
  /-- The command's name. -/
  mnemonic : String
  /-- `op`, bits 63..56 of the word. -/
  op : Byte
  /-- The layout of `imm`. -/
  format : Format
  deriving DecidableEq, Repr

end Sys2Proof
end

