-- ==== Sys2Proof/Decode.lean ====
section
/-! DEFINITION. Decoding (total: R95) and encoding of the commands, from the field layout R92, the formats R93 and the
opcode map R96; the same map as a table of rows; the numbering of the opcode table for the host's check. -/

namespace Sys2Proof

/-! ## Fields of a word (R92, R93) -/

/-- `op = w[63:56]`. -/
def opField (w : CommandWord) : Byte := w.extractLsb' 56 8

/-- `rsv = w[55:32]`. -/
def rsvField (w : CommandWord) : BitVec 24 := w.extractLsb' 32 24

/-- `imm = w[31:0]`. -/
def immField (w : CommandWord) : Word := w.extractLsb' 0 32

/-- `imm[15:0]`, the `lo` of a `P16` operand; also the width field of a dimension register. -/
def lowHalf (v : Word) : Half := v.extractLsb' 0 16

/-- `imm[31:16]`, the `hi` of a `P16` operand; also the height field of a dimension register. -/
def highHalf (v : Word) : Half := v.extractLsb' 16 16

/-- `{hi, lo}`. -/
def pairWord (lo hi : Half) : Word := hi ++ lo

/-- `imm[7:0]`, the index of an `I8` operand. -/
def lowByte (v : Word) : Byte := v.extractLsb' 0 8

/-- `imm[31:8]`, which an `I8` command requires to be zero. -/
def highBits (v : Word) : BitVec 24 := v.extractLsb' 8 24

/-! ## Decoding -/

/-- Format `Z`. -/
def decodeZ (imm : Word) (i : Instr) : Option Instr := if imm = 0#32 then some i else none

/-- Format `I32`: every operand decodes (R99). -/
def decodeI32 (imm : Word) (mk : Word → Instr) : Option Instr := some (mk imm)

/-- Format `P16`: every operand decodes (R99). -/
def decodeP16 (imm : Word) (mk : Half → Half → Instr) : Option Instr := some (mk (lowHalf imm) (highHalf imm))

/-- Format `I8`. -/
def decodeI8 (imm : Word) (mk : Byte → Instr) : Option Instr :=
  if highBits imm = 0#24 then some (mk (lowByte imm)) else none

/-- The opcode map R96, for a word whose `rsv` is zero. -/
def decodeOp (op : Byte) (imm : Word) : Option Instr :=
  match op with
  | 0x01#8 => decodeI32 imm .setstrat
  | 0x02#8 => decodeI32 imm .setscope
  | 0x03#8 => decodeI32 imm .setbase
  | 0x04#8 => decodeI32 imm .setdelta
  | 0x05#8 => decodeI32 imm .seta
  | 0x06#8 => decodeI32 imm .setb
  | 0x07#8 => decodeP16 imm .setwin
  | 0x10#8 => decodeI32 imm .setdstbase
  | 0x11#8 => decodeP16 imm .setdstdim
  | 0x12#8 => decodeI32 imm .setdststride
  | 0x13#8 => decodeI32 imm .setsrcbase
  | 0x14#8 => decodeP16 imm .setsrcdim
  | 0x15#8 => decodeI32 imm .setsrcstride
  | 0x20#8 => decodeZ imm .markdirty
  | 0x21#8 => decodeZ imm .fresh
  | 0x22#8 => decodeI8 imm .lutrd
  | 0x23#8 => decodeI8 imm .rdreg
  | 0x24#8 => decodeZ imm .clrerr
  | 0x30#8 => decodeZ imm .apply
  | _ => none

/-- Decoding: `none` is an illegal command (R98). It looks at nothing but the word (R95). -/
def decode (w : CommandWord) : Option Instr :=
  if rsvField w = 0#24 then decodeOp (opField w) (immField w) else none

/-! ## Encoding -/

/-- A word with `rsv = 0`. -/
def encodeFields (op : Byte) (imm : Word) : CommandWord := op ++ (0#24 ++ imm)

/-- The `imm` of an `I8` command. -/
def indexWord (idx : Byte) : Word := 0#24 ++ idx

/-- The opcode of a command, R96. -/
def Instr.opcode : Instr → Byte
  | .setstrat _ => 0x01#8
  | .setscope _ => 0x02#8
  | .setbase _ => 0x03#8
  | .setdelta _ => 0x04#8
  | .seta _ => 0x05#8
  | .setb _ => 0x06#8
  | .setwin _ _ => 0x07#8
  | .setdstbase _ => 0x10#8
  | .setdstdim _ _ => 0x11#8
  | .setdststride _ => 0x12#8
  | .setsrcbase _ => 0x13#8
  | .setsrcdim _ _ => 0x14#8
  | .setsrcstride _ => 0x15#8
  | .markdirty => 0x20#8
  | .fresh => 0x21#8
  | .lutrd _ => 0x22#8
  | .rdreg _ => 0x23#8
  | .clrerr => 0x24#8
  | .apply => 0x30#8

/-- The operand field of a command, R93. -/
def Instr.operand : Instr → Word
  | .setstrat v => v
  | .setscope v => v
  | .setbase v => v
  | .setdelta v => v
  | .seta v => v
  | .setb v => v
  | .setwin ww wh => pairWord ww wh
  | .setdstbase v => v
  | .setdstdim w h => pairWord w h
  | .setdststride v => v
  | .setsrcbase v => v
  | .setsrcdim w h => pairWord w h
  | .setsrcstride v => v
  | .markdirty => 0#32
  | .fresh => 0#32
  | .lutrd idx => indexWord idx
  | .rdreg idx => indexWord idx
  | .clrerr => 0#32
  | .apply => 0#32

/-- The word of a command. -/
def encode (i : Instr) : CommandWord := encodeFields i.opcode i.operand

/-! ## The opcode map as a table -/

/-- The 19 rows of R96. -/
def opcodeTable : List Row :=
  [⟨"SETSTRAT", 0x01#8, .i32⟩, ⟨"SETSCOPE", 0x02#8, .i32⟩, ⟨"SETBASE", 0x03#8, .i32⟩,
   ⟨"SETDELTA", 0x04#8, .i32⟩, ⟨"SETA", 0x05#8, .i32⟩, ⟨"SETB", 0x06#8, .i32⟩, ⟨"SETWIN", 0x07#8, .p16⟩] ++
  [⟨"SETDSTBASE", 0x10#8, .i32⟩, ⟨"SETDSTDIM", 0x11#8, .p16⟩, ⟨"SETDSTSTRIDE", 0x12#8, .i32⟩,
   ⟨"SETSRCBASE", 0x13#8, .i32⟩, ⟨"SETSRCDIM", 0x14#8, .p16⟩, ⟨"SETSRCSTRIDE", 0x15#8, .i32⟩] ++
  [⟨"MARKDIRTY", 0x20#8, .z⟩, ⟨"FRESH", 0x21#8, .z⟩, ⟨"LUTRD", 0x22#8, .i8⟩, ⟨"RDREG", 0x23#8, .i8⟩,
   ⟨"CLRERR", 0x24#8, .z⟩, ⟨"APPLY", 0x30#8, .z⟩]

/-- The row a command belongs to. -/
def Instr.mnemonic : Instr → String
  | .setstrat _ => "SETSTRAT"
  | .setscope _ => "SETSCOPE"
  | .setbase _ => "SETBASE"
  | .setdelta _ => "SETDELTA"
  | .seta _ => "SETA"
  | .setb _ => "SETB"
  | .setwin _ _ => "SETWIN"
  | .setdstbase _ => "SETDSTBASE"
  | .setdstdim _ _ => "SETDSTDIM"
  | .setdststride _ => "SETDSTSTRIDE"
  | .setsrcbase _ => "SETSRCBASE"
  | .setsrcdim _ _ => "SETSRCDIM"
  | .setsrcstride _ => "SETSRCSTRIDE"
  | .markdirty => "MARKDIRTY"
  | .fresh => "FRESH"
  | .lutrd _ => "LUTRD"
  | .rdreg _ => "RDREG"
  | .clrerr => "CLRERR"
  | .apply => "APPLY"

/-- The bits of `imm` a format requires to be zero, R93. -/
def Format.zeroMask : Format → Word
  | .z => 0xFFFFFFFF#32
  | .i32 => 0#32
  | .p16 => 0#32
  | .i8 => 0xFFFFFF00#32

/-- A word matches a row (R95): its `op` is the row's, `rsv = 0`, and the must-be-zero bits of the format are zero. -/
def Row.accepts (r : Row) (w : CommandWord) : Bool :=
  decide (opField w = r.op) && decide (rsvField w = 0#24) && decide (immField w &&& r.format.zeroMask = 0#32)

/-! ## The host's numbering -/

/-- What the decoder reads from a word of the opcode table. A command is one 64-bit word, so bit 0 of the table's
numbering is bit 0 of the word; bits above `nbits` are zero, and no command has more than 64. -/
def decodeTableWord (nbits w : Nat) : Option Instr :=
  if w % 2 ^ nbits < 2 ^ 64 then decode (BitVec.ofNat 64 (w % 2 ^ nbits)) else none

end Sys2Proof
end

