-- ==== Sys2Proof/Machine/Operands.lean ====
section
/-! DEFINITION. Operands: how a command's operand is read and which values it accepts (R121 to R127), the register codes of
the enumerated parameters (R25, R26), and the clamp to a byte (R12). -/

namespace Sys2Proof.Machine

/-- The strategy a code names; codes of 3 and more name none (R121). -/
def Strategy.ofCode (v : Word) : Option Strategy :=
  if v = 0#32 then some .log else if v = 1#32 then some .flatField else if v = 2#32 then some .contrast else none

/-- `x[STRAT]`, R25. -/
def Strategy.word : Strategy → Word
  | .log => 0#32
  | .flatField => 1#32
  | .contrast => 2#32

/-- The lane mask of an operand; a value above 7 is no mask (R122). -/
def scopeOf (v : Word) : Option (BitVec 3) := if v.toNat ≤ 7 then some (v.setWidth 3) else none

/-- A legal base: `sext_32(v) > 0` and not 1.0 (R123). -/
def baseLegal (v : Word) : Bool := decide (0 < v.toInt) && decide (v ≠ 0x00010000#32)

/-- A Q15.16 word in `[-1, 1]` (R124, R125, R126). -/
def unitLegal (v : Word) : Bool := decide (-65536 ≤ v.toInt) && decide (v.toInt ≤ 65536)

/-- A window has at least one pixel each way (R127). -/
def windowLegal (ww wh : Half) : Bool := decide (ww ≠ 0#16) && decide (wh ≠ 0#16)

/-- `clamp8` of an integer, R12. For a rational with a positive denominator it is applied to the floor, which gives the
same byte. -/
def clamp8 (v : Int) : Byte := if v < 0 then 0#8 else if 255 ≤ v then 255#8 else BitVec.ofNat 8 v.toNat

/-- `clamp8` of a real `v` given by its threshold test, `reaches k` saying `k ≤ v`: the greatest `k` of 0 to 255 that `v`
reaches, or 0. Found bit by bit. -/
def clampSearch (reaches : Nat → Bool) : Byte :=
  BitVec.ofNat 8 ([128, 64, 32, 16, 8, 4, 2, 1].foldl (fun r b => if reaches (r + b) then r + b else r) 0)

/-- The lanes in scope: `c` in 0, 1, 2 with bit `c` of the mask set; lane 3 has no bit (R26). -/
def scopeLanes (scope : BitVec 3) : List Nat := [0, 1, 2].filter fun c => scope.getLsbD c

end Sys2Proof.Machine
end

