-- ==== Sys2Proof/Machine/LogLut.lean ====
section
/-! DEFINITION. `LogLut` (R151), exactly and computably. The rule defines entry `i` as `clamp8(v_i)` with the real
`v_i = 255 * ln(arg_i) / ln(base) + Dv/512`. For an integer `k`, `k ≤ v_i` says
`130560 * ln(arg_i) / ln(base) ≥ 512*k - Dv`, and since `arg_i` and `base` are rationals this is a comparison of two powers
of rationals, that is of integers: no logarithm is ever evaluated and no rounding made (log 6). -/

namespace Sys2Proof.Machine

/-- Bounds on a natural number `v`: `lo * 2^e ≤ v ≤ hi * 2^e`. They make comparisons of very large powers cheap. -/
structure Approx where
  /-- Lower mantissa. -/
  lo : Nat
  /-- Upper mantissa. -/
  hi : Nat
  /-- Exponent of two. -/
  e : Nat
  deriving DecidableEq, Repr

/-- Keep at most 128 bits of the mantissas, rounding outward. -/
def Approx.norm (a : Approx) : Approx :=
  let s := a.hi.log2 - 127
  if s = 0 then a else { lo := a.lo >>> s, hi := (a.hi >>> s) + 1, e := a.e + s }

/-- Bounds on a product. -/
def Approx.mul (a b : Approx) : Approx :=
  Approx.norm { lo := a.lo * b.lo, hi := a.hi * b.hi, e := a.e + b.e }

/-- Bounds on `x ^ n`, by squaring; `fuel` is at least the number of bits of `n`. -/
def approxPow (x : Nat) : Nat → Nat → Approx
  | 0, _ => { lo := 1, hi := 1, e := 0 }
  | fuel + 1, n =>
    if n = 0 then { lo := 1, hi := 1, e := 0 }
    else
      let h := approxPow x fuel (n / 2)
      let q := h.mul h
      if n % 2 = 1 then q.mul { lo := x, hi := x, e := 0 } else q

/-- The bounds alone show that the first number is at most the second. -/
def Approx.surelyLe (a b : Approx) : Bool :=
  let m := min a.e b.e
  decide (a.hi <<< (a.e - m) ≤ b.lo <<< (b.e - m))

/-- The bounds alone show that the first number is below the second. -/
def Approx.surelyLt (a b : Approx) : Bool :=
  let m := min a.e b.e
  decide (a.hi <<< (a.e - m) < b.lo <<< (b.e - m))

/-- `a^p * b^q ≤ c^r * d^t`. Where the exponents are large the bounds are tried first; the exact comparison decides
whatever they leave open, so the answer is always exact (`powersLe_iff`). -/
def powersLe (a p b q c r d t : Nat) : Bool :=
  if p + q + r + t ≤ 2048 ∨ 2 ^ 40 ≤ p + q + r + t then decide (a ^ p * b ^ q ≤ c ^ r * d ^ t)
  else
    let left := (approxPow a 40 p).mul (approxPow b 40 q)
    let right := (approxPow c 40 r).mul (approxPow d 40 t)
    if left.surelyLe right then true
    else if right.surelyLt left then false
    else decide (a ^ p * b ^ q ≤ c ^ r * d ^ t)

/-- `arg_i * 16711680 = 16711680 + (Bv - 65536)*i`, for `i` of 0 to 255 (R151). -/
def logArg (bv i : Nat) : Nat := 65536 * (255 - i) + bv * i

/-- `k ≤ v_i` for a legal base `bv / 65536`, with `dv = sext_32(D)`. With `m = 512*k - dv`: the logarithm term of `v_i` is
never negative, so the test holds when `m ≤ 0`; otherwise, with `p/q` the fraction `130560/m` in lowest terms, it says
`arg_i^p ≥ base^q` for a base above 1 and `arg_i^p ≤ base^q` for a base below 1. -/
def logReaches (bv : Nat) (dv : Int) (i k : Nat) : Bool :=
  let m := 512 * (k : Int) - dv
  if m ≤ 0 then true
  else
    let g := Nat.gcd 130560 m.toNat
    let p := 130560 / g
    let q := m.toNat / g
    if 65536 < bv then powersLe bv q 16711680 p (logArg bv i) p 65536 q
    else powersLe (logArg bv i) p 65536 q bv q 16711680 p

/-- Entry `i` of `LogLut(B, D)` (R151). For a word that is no legal base the rule gives no value: it is free (log 7). -/
def logEntry (b d : Word) (i : Nat) : Byte :=
  if baseLegal b then clampSearch (logReaches b.toNat d.toInt i) else Config.freeLogByte b d i

end Sys2Proof.Machine
end

