-- ==== Sys2Proof/Machine/LutGen.lean ====
section
/-! DEFINITION. `LutGen`: the table as a function of the parameters (R150), with its three formulas. -/

namespace Sys2Proof.Machine

/-- The table with the entries `f 0` to `f 255`. -/
def Lut.ofFn (f : Nat → Byte) : Lut := ⟨((List.range 256).map f).toArray, by simp⟩

/-- Entry `i`. -/
def Lut.entry (t : Lut) (i : Byte) : Byte := t[i.toNat]'i.isLt

/-- `LogLut(B, D)`, R151. -/
def logLut (b d : Word) : Lut := Lut.ofFn (logEntry b d)

/-- `num_i = 131072*i + Av*(2*i - 255) + 510*Bv`, R154. -/
def conNum (a bo : Word) (i : Nat) : Int := 131072 * (i : Int) + a.toInt * (2 * (i : Int) - 255) + 510 * bo.toInt

/-- `ConLut(A, Bo)`, R154: 0 if `num_i < 0`, else `min(255, num_i div 131072)`. -/
def conLut (a bo : Word) : Lut := Lut.ofFn fun i => clamp8 (conNum a bo i / 131072)

/-- `IdLut[i] = i`, R156. -/
def idLut : Lut := Lut.ofFn fun i => BitVec.ofNat 8 i

/-- `LutGen`, R150: it reads the strategy and the four parameters and nothing else. -/
def lutGen (strat : Strategy) (b d a bo : Word) : Lut :=
  match strat with
  | .log => logLut b d
  | .flatField => idLut
  | .contrast => conLut a bo

end Sys2Proof.Machine
end

