-- ==== Sys2Proof/Machine/Ops.lean ====
section
/-! DEFINITION. The named operations over memory and registers: byte access to the pixel memory (R60), buffer addressing and
validation (R62, R183), the register read (R21, R231), the response (R102), the one way an error is taken (R246), and the
rebuild step (R160). An error has no handler and no return (R250, R251): the host presents the next command. -/

namespace Sys2Proof.Machine

/-! ## Pixel memory -/

/-- `MemRead(addr, 1)`. -/
def Memory.read : Memory → Nat → Byte
  | [], _ => Config.unlistedByte
  | (k, v) :: rest, a =>
    if a < k then Config.unlistedByte else if a = k then v else Memory.read rest a

/-- A cell in front of a memory, left out when it holds what an unlisted address reads as. -/
def Memory.cons (a : Nat) (b : Byte) (m : Memory) : Memory := if b = Config.unlistedByte then m else (a, b) :: m

/-- `MemWrite(addr, 1, v)`, keeping the canonical form. -/
def Memory.write : Memory → Nat → Byte → Memory
  | [], a, b => Memory.cons a b []
  | (k, v) :: rest, a, b =>
    if a < k then Memory.cons a b ((k, v) :: rest)
    else if a = k then Memory.cons a b rest
    else (k, v) :: Memory.write rest a b

/-- Several byte writes, in order. -/
def Memory.writeAll (m : Memory) (ws : List (Nat × Byte)) : Memory := ws.foldl (fun m w => m.write w.1 w.2) m

/-- Every address listed is above `bound`, addresses rise strictly, no byte is the unlisted one. -/
def Memory.wfAbove : Nat → Memory → Bool
  | _, [] => true
  | bound, (k, v) :: rest => decide (bound ≤ k) && decide (v ≠ Config.unlistedByte) && Memory.wfAbove (k + 1) rest

/-- The canonical form: equal memories are equal lists. -/
def Memory.wf (m : Memory) : Bool := Memory.wfAbove 0 m

/-- Every listed address exists (R60). -/
def Memory.within (m : Memory) (memBytes : Nat) : Bool := m.all fun cell => decide (cell.1 < memBytes)

/-! ## Buffers -/

/-- The destination descriptor (R24). -/
def State.dst (s : State) : Descriptor :=
  { base := s.dstBase.toNat, width := (lowHalf s.dstDim).toNat, height := (highHalf s.dstDim).toNat,
    stride := s.dstStride.toNat }

/-- The source descriptor (R24). -/
def State.src (s : State) : Descriptor :=
  { base := s.srcBase.toNat, width := (lowHalf s.srcDim).toNat, height := (highHalf s.srcDim).toNat,
    stride := s.srcStride.toNat }

/-- The address of a channel byte, R62: `BASE + y*STRIDE + 4*x + c`. -/
def Descriptor.addr (d : Descriptor) (p : Site) : Nat := d.base + p.y * d.stride + 4 * p.x + p.c

/-- `Valid`, R183. -/
def Descriptor.valid (d : Descriptor) (memBytes : Nat) : Bool :=
  decide (1 ≤ d.width) && decide (1 ≤ d.height) && decide (4 * d.width ≤ d.stride) &&
    decide (d.base + (d.height - 1) * d.stride + 4 * d.width ≤ memBytes)

/-- The channel bytes of the lanes `lanes` of a `width × height` image, lane by lane and row by row. The order is not
observable (R189, R219). -/
def sites (lanes : List Nat) (width height : Nat) : List Site :=
  lanes.flatMap fun c => (List.range height).flatMap fun y => (List.range width).map fun x => { x := x, y := y, c := c }

/-- The in-scope channel bytes of the destination. -/
def State.scopeSites (s : State) : List Site := sites (scopeLanes s.scope) s.dst.width s.dst.height

/-- `a` lies in the footprint of a buffer (R66). -/
def Descriptor.covers (d : Descriptor) (a : Nat) : Prop :=
  ∃ p : Site, p.x < d.width ∧ p.y < d.height ∧ p.c ≤ 3 ∧ a = d.addr p

/-- The two footprints share a byte: some row of one meets some row of the other. -/
def Descriptor.meets (d e : Descriptor) : Bool :=
  (List.range d.height).any fun y => (List.range e.height).any fun z =>
    decide (max (d.base + y * d.stride) (e.base + z * e.stride) <
      min (d.base + y * d.stride + 4 * d.width) (e.base + z * e.stride + 4 * e.width))

/-- The exact overlay of R70: same base, same stride. -/
def Descriptor.sameLayout (d e : Descriptor) : Bool := decide (d.base = e.base) && decide (d.stride = e.stride)

/-- The overlap R71 leaves UNPREDICTABLE. -/
def State.partialOverlap (s : State) : Bool := !s.dst.sameLayout s.src && s.dst.meets s.src

/-! ## Registers -/

/-- `x[idx]`, R21; `none` for an index that does not exist. `ID` is the hard-wired constant. -/
def State.readReg (s : State) (idx : Byte) : Option Word :=
  match idx with
  | 0x00#8 => some Config.idWord
  | 0x01#8 => some s.status.word
  | 0x02#8 => some s.rbcnt
  | 0x03#8 => some s.strat.word
  | 0x04#8 => some (s.scope.setWidth 32)
  | 0x05#8 => some s.base
  | 0x06#8 => some s.delta
  | 0x07#8 => some s.ca
  | 0x08#8 => some s.cb
  | 0x09#8 => some s.win
  | 0x0A#8 => some s.dstBase
  | 0x0B#8 => some s.dstDim
  | 0x0C#8 => some s.dstStride
  | 0x0D#8 => some s.srcBase
  | 0x0E#8 => some s.srcDim
  | 0x0F#8 => some s.srcStride
  | _ => none

/-- The table entry `i`; a free value while the table has no contents (log 5). -/
def State.lutByte (s : State) (i : Byte) : Byte :=
  match s.lut with
  | some t => t.entry i
  | none => Config.freeLutByte i.toNat

/-! ## Shared steps -/

/-- `respond(status, data)`: every command ends in exactly one (R15, R91). -/
def State.respond (s : State) (status : Byte) (data : Word) : State :=
  { s with responses := s.responses ++ [{ status := status, data := data }] }

/-- A command that completes with data zero (R15, R102). -/
def State.done (s : State) : State := s.respond 0#8 0#32

/-- Taking an error, R246: the flag and LASTERR are recorded, the response is `(k, 0)`, nothing else changes. -/
def State.raise (s : State) (e : ErrorCode) : State :=
  { s with status := s.status.record e }.respond (BitVec.ofNat 8 e.code) 0#32

/-- `DIRTY <- 1`. -/
def State.markDirty (s : State) : State := { s with status := s.status.markDirty }

/-- `EnsureFresh`, R160. -/
def State.ensureFresh (s : State) : State :=
  if s.status.dirty then
    { s with status := s.status.clearDirty, lut := some (lutGen s.strat s.base s.delta s.ca s.cb), rbcnt := s.rbcnt + 1#32 }
  else s

/-- What every configuration setter does, R120: an operand that is not accepted raises ConfigurationError; one that is
writes the register (`write`) and sets DIRTY. -/
def State.configure (s : State) (accepted : Bool) (write : State → State) : State :=
  if accepted then (write s).markDirty.done else s.raise .configuration

end Sys2Proof.Machine
end

