-- ==== Sys2Proof/Machine/Combine.lean ====
section
/-! DEFINITION. The pieces of the local pass: the working copy, the blurred reference, the lane sums and the two combine
functions (R201 to R208). -/

namespace Sys2Proof.Machine

/-- An image: the byte at lane `c` of pixel `(x, y)`. Only a value of the computation, never a field of State. -/
abbrev Img := Nat → Nat → Nat → Byte

/-- The working copy `Wk`, R201: the source as the memory holds it when the command is presented. -/
def State.workingCopy (s : State) : Img := fun x y c => s.mem.read (s.src.addr { x := x, y := y, c := c })

/-- The image as the tightly packed bytes of the scratch memory (R201), row by row, four lanes a pixel. -/
def packed (width height : Nat) (img : Img) : List Byte :=
  (List.range height).flatMap fun y => (List.range width).flatMap fun x => [img x y 0, img x y 1, img x y 2, img x y 3]

/-- Lane `c` has one value at every pixel (the premise of P3, R203). -/
def laneUniform (width height : Nat) (img : Img) (c : Nat) : Bool :=
  (List.range height).all fun y => (List.range width).all fun x => img x y c = img 0 0 c

/-- The contract of R203 fixes lane `c` of the answer, and to the image's own bytes: a unit window (P4) or a uniform lane
(P3). -/
def blurKeeps (width height ww wh : Nat) (img : Img) (c : Nat) : Bool :=
  (decide (ww = 1) && decide (wh = 1)) || laneUniform width height img c

/-- `BLUR(W, H, WW, WH, img)`: any function with the properties P1 to P4 of R203, and no other property. Where P3 or P4
fixes the answer it is that; elsewhere it is a free value of the five arguments (log 8). -/
def blur (width height ww wh : Nat) (img : Img) : Img := fun x y c =>
  if blurKeeps width height ww wh img c then img x y c
  else Config.freeBlurByte width height ww wh (packed width height img) x y c

/-- `Sum[c]`, R205. -/
def laneSum (width height : Nat) (img : Img) (c : Nat) : Nat :=
  ((List.range height).map fun y => ((List.range width).map fun x => (img x y c).toNat).sum).sum

/-- `FFCombine(s, r, Sum, N)`, R206, with the guard against a zero reference. -/
def ffCombine (s r : Byte) (sum n : Nat) : Byte :=
  if r = 0#8 then s else BitVec.ofNat 8 (min 255 ((s.toNat * sum) / (r.toNat * n)))

/-- The derived intensity `d = clamp8(2*s - r)` of R208. -/
def ksiIndex (s r : Byte) : Byte := clamp8 (2 * (s.toNat : Int) - (r.toNat : Int))

end Sys2Proof.Machine
end

