-- ==== Sys2Proof/Machine/Apply.lean ====
section
/-! DEFINITION. `APPLY`: the checks in their order (R181 to R185), the global pass (R186) and the local pass (R200, R210).
A pass is one simultaneous assignment (R189, R219, 93 U9): the list of bytes to store is computed from the memory as it was
and then stored. -/

namespace Sys2Proof.Machine

/-- The error an `APPLY` raises, if any: the first failing test of R181 names it (R182, R249). -/
def State.applyError (s : State) : Option ErrorCode :=
  if s.strat = .log then
    if s.dst.valid s.params.memBytes then none else some .bufferDescriptor
  else if s.dst.width ≠ s.src.width ∨ s.dst.height ≠ s.src.height then some .dimensionMismatch
  else if !s.dst.valid s.params.memBytes then some .bufferDescriptor
  else if !s.src.valid s.params.memBytes then some .bufferDescriptor
  else if s.params.scratchPixels < s.dst.width * s.dst.height then some .bufferDescriptor
  else none

/-- The stores of `GlobalPass`, R186: every in-scope byte of the destination goes through the table. -/
def State.globalStores (s : State) : List (Nat × Byte) :=
  s.scopeSites.map fun p => (s.dst.addr p, s.lutByte (s.mem.read (s.dst.addr p)))

/-- The output byte of phase 2 (R200): `FFCombine` under FLATFIELD, `KSICombine` (R208) otherwise. -/
def State.combine (s : State) (source reference : Byte) (sum n : Nat) : Byte :=
  if s.strat = .flatField then ffCombine source reference sum n else s.lutByte (ksiIndex source reference)

/-- The stores of phase 2 for one lane, R210. What holds for the whole lane is computed once, before the first store
(the barrier R204): the blurred reference and, under FLATFIELD, the sum. -/
def State.laneStores (s : State) (c : Nat) : List (Nat × Byte) :=
  let width := s.dst.width
  let height := s.dst.height
  let img := s.workingCopy
  let keeps := blurKeeps width height (lowHalf s.win).toNat (highHalf s.win).toNat img c
  let bytes := packed width height img
  let sum := if s.strat = .flatField then laneSum width height img c else 0
  (List.range height).flatMap fun y => (List.range width).map fun x =>
    let reference := if keeps then img x y c
      else Config.freeBlurByte width height (lowHalf s.win).toNat (highHalf s.win).toNat bytes x y c
    (s.dst.addr { x := x, y := y, c := c }, s.combine (img x y c) reference sum (width * height))

/-- The stores of `LocalPass`, R200. -/
def State.localStores (s : State) : List (Nat × Byte) := (scopeLanes s.scope).flatMap s.laneStores

/-- `GlobalPass`. -/
def State.globalPass (s : State) : State := { s with mem := s.mem.writeAll s.globalStores }

/-- `LocalPass`. Under the partial overlap of R71 the in-scope destination bytes are UNPREDICTABLE and nothing else is
affected: they get free bytes (log 9). -/
def State.localPass (s : State) : State :=
  if s.partialOverlap then
    { s with mem := s.mem.writeAll (s.scopeSites.map fun p => (s.dst.addr p, Config.freeOverlapByte s.freeIx (s.dst.addr p))),
             freeIx := s.freeIx + 1 }
  else { s with mem := s.mem.writeAll s.localStores }

/-- What `APPLY` does after validation, R181. FLATFIELD uses no table and does not run EnsureFresh (R207 F2). -/
def State.applyPass (s : State) : State :=
  match s.strat with
  | .log => s.ensureFresh.globalPass
  | .flatField => s.localPass
  | .contrast => s.ensureFresh.localPass

/-- `APPLY`, R181. Every check precedes every state change (R182). -/
def execApply (s : State) : Host.Outcome State Fault Refusal :=
  match s.applyError with
  | some e => .next (s.raise e)
  | none => .next s.applyPass.done

end Sys2Proof.Machine
end

