-- ==== Sys2Proof/Machine/ConfigSetters.lean ====
section
/-! DEFINITION. The seven configuration setters, R120 to R127. -/

namespace Sys2Proof.Machine

/-- `SETSTRAT v`, R121. -/
def execSetstrat (v : Word) (s : State) : Host.Outcome State Fault Refusal :=
  match Strategy.ofCode v with
  | some st => .next (s.configure true fun s => { s with strat := st })
  | none => .next (s.raise .configuration)

/-- `SETSCOPE v`, R122. -/
def execSetscope (v : Word) (s : State) : Host.Outcome State Fault Refusal :=
  match scopeOf v with
  | some m => .next (s.configure true fun s => { s with scope := m })
  | none => .next (s.raise .configuration)

/-- `SETBASE v`, R123. -/
def execSetbase (v : Word) (s : State) : Host.Outcome State Fault Refusal :=
  .next (s.configure (baseLegal v) fun s => { s with base := v })

/-- `SETDELTA v`, R124. -/
def execSetdelta (v : Word) (s : State) : Host.Outcome State Fault Refusal :=
  .next (s.configure (unitLegal v) fun s => { s with delta := v })

/-- `SETA v`, R125. -/
def execSeta (v : Word) (s : State) : Host.Outcome State Fault Refusal :=
  .next (s.configure (unitLegal v) fun s => { s with ca := v })

/-- `SETB v`, R126. -/
def execSetb (v : Word) (s : State) : Host.Outcome State Fault Refusal :=
  .next (s.configure (unitLegal v) fun s => { s with cb := v })

/-- `SETWIN ww, wh`, R127. -/
def execSetwin (ww wh : Half) (s : State) : Host.Outcome State Fault Refusal :=
  .next (s.configure (windowLegal ww wh) fun s => { s with win := pairWord ww wh })

end Sys2Proof.Machine
end

