-- ==== Sys2Proof/Machine/DescriptorSetters.lean ====
section
/-! DEFINITION. The six descriptor setters, R140 to R146: the operand is written, nothing is checked and nothing else
changes. -/

namespace Sys2Proof.Machine

/-- `SETDSTBASE v`, R141. -/
def execSetdstbase (v : Word) (s : State) : Host.Outcome State Fault Refusal := .next { s with dstBase := v }.done

/-- `SETDSTDIM w, h`, R142. -/
def execSetdstdim (w h : Half) (s : State) : Host.Outcome State Fault Refusal :=
  .next { s with dstDim := pairWord w h }.done

/-- `SETDSTSTRIDE v`, R143. -/
def execSetdststride (v : Word) (s : State) : Host.Outcome State Fault Refusal := .next { s with dstStride := v }.done

/-- `SETSRCBASE v`, R144. -/
def execSetsrcbase (v : Word) (s : State) : Host.Outcome State Fault Refusal := .next { s with srcBase := v }.done

/-- `SETSRCDIM w, h`, R145. -/
def execSetsrcdim (w h : Half) (s : State) : Host.Outcome State Fault Refusal :=
  .next { s with srcDim := pairWord w h }.done

/-- `SETSRCSTRIDE v`, R146. -/
def execSetsrcstride (v : Word) (s : State) : Host.Outcome State Fault Refusal := .next { s with srcStride := v }.done

end Sys2Proof.Machine
end

