-- ==== Sys2Proof/Machine/LutCommands.lean ====
section
/-! DEFINITION. The table commands, R161 to R163. -/

namespace Sys2Proof.Machine

/-- `MARKDIRTY`, R161. -/
def execMarkdirty (s : State) : Host.Outcome State Fault Refusal := .next s.markDirty.done

/-- `FRESH`, R162. -/
def execFresh (s : State) : Host.Outcome State Fault Refusal := .next s.ensureFresh.done

/-- `LUTRD idx`, R163: a read is a use, so a stale table is rebuilt first. -/
def execLutrd (idx : Byte) (s : State) : Host.Outcome State Fault Refusal :=
  .next (s.ensureFresh.respond 0#8 ((s.ensureFresh.lutByte idx).setWidth 32))

end Sys2Proof.Machine
end

