-- ==== Sys2Proof/Machine/StatusCommands.lean ====
section
/-! DEFINITION. Read-back and housekeeping, R231 and R232. -/

namespace Sys2Proof.Machine

/-- `RDREG idx`, R231: an index that does not exist raises IllegalCommand although the word decodes (R98). -/
def execRdreg (idx : Byte) (s : State) : Host.Outcome State Fault Refusal :=
  match s.readReg idx with
  | some v => .next (s.respond 0#8 v)
  | none => .next (s.raise .illegalCommand)

/-- `CLRERR`, R232. -/
def execClrerr (s : State) : Host.Outcome State Fault Refusal :=
  .next { s with status := s.status.clearErrors }.done

end Sys2Proof.Machine
end

