-- ==== Sys2Proof/Machine/Dispatch.lean ====
section
/-! DEFINITION. One arm per command: the meaning of a decoded instruction. -/

namespace Sys2Proof.Machine

def exec (i : Instr) (s : State) : Host.Outcome State Fault Refusal :=
  match i with
  | .setstrat v => Sys2Proof.Machine.execSetstrat v s
  | .setscope v => Sys2Proof.Machine.execSetscope v s
  | .setbase v => Sys2Proof.Machine.execSetbase v s
  | .setdelta v => Sys2Proof.Machine.execSetdelta v s
  | .seta v => Sys2Proof.Machine.execSeta v s
  | .setb v => Sys2Proof.Machine.execSetb v s
  | .setwin ww wh => Sys2Proof.Machine.execSetwin ww wh s
  | .setdstbase v => Sys2Proof.Machine.execSetdstbase v s
  | .setdstdim w h => Sys2Proof.Machine.execSetdstdim w h s
  | .setdststride v => Sys2Proof.Machine.execSetdststride v s
  | .setsrcbase v => Sys2Proof.Machine.execSetsrcbase v s
  | .setsrcdim w h => Sys2Proof.Machine.execSetsrcdim w h s
  | .setsrcstride v => Sys2Proof.Machine.execSetsrcstride v s
  | .markdirty => Sys2Proof.Machine.execMarkdirty s
  | .fresh => Sys2Proof.Machine.execFresh s
  | .lutrd idx => Sys2Proof.Machine.execLutrd idx s
  | .rdreg idx => Sys2Proof.Machine.execRdreg idx s
  | .clrerr => Sys2Proof.Machine.execClrerr s
  | .apply => Sys2Proof.Machine.execApply s

end Sys2Proof.Machine
end

