-- ==== Sys2Proof/Machine/Port.lean ====
section
/-! DEFINITION. The command port and the reset input: what each host move does (R90, R91, R98, R270, R272). -/

namespace Sys2Proof.Machine

/-- A command word, executed to completion: an illegal word raises IllegalCommand and is not examined further (R98,
R249). -/
def execWord (w : CommandWord) (s : State) : Host.Outcome State Fault Refusal :=
  match decode w with
  | some i => exec i s
  | none => .next (s.raise .illegalCommand)

/-- The reset input, R270 and R271: every register at its reset value, the table unspecified; the pixel memory is not
touched, nor is what lies outside the PCE (its parameters, the host's further moves, the responses already given). -/
def State.hwReset (s : State) : State :=
  { State.reset with params := s.params, mem := s.mem, inbox := s.inbox, responses := s.responses, freeIx := s.freeIx }

/-- The memory after reset has cut an `APPLY` short, R272: each in-scope destination byte is the old one or the new one
(log 12). -/
def State.cutShort (s : State) (after : Memory) : Memory :=
  s.mem.writeAll (s.scopeSites.map fun p =>
    (s.dst.addr p, if Config.freeResetLands s.freeIx (s.dst.addr p) then after.read (s.dst.addr p)
      else s.mem.read (s.dst.addr p)))

/-- Reset asserted while the command `w` executes, R272: the command is abandoned without a response. Only an `APPLY` past
validation can have left a trace. -/
def State.resetDuring (s : State) (w : CommandWord) : State :=
  if decode w = some .apply ∧ s.applyError = none then
    { s with mem := s.cutShort s.applyPass.mem, freeIx := s.applyPass.freeIx + 1 }.hwReset
  else s.hwReset

/-- One host move. A write to an address that does not exist is the one fault. -/
def hostMove (m : HostMove) (s : State) : Host.Outcome State Fault Refusal :=
  match m with
  | .command w => execWord w s
  | .memWrite a b => if a < s.params.memBytes then .next { s with mem := s.mem.write a b } else .fault .noSuchAddress
  | .reset => .next s.hwReset
  | .resetDuring w => .next (s.resetDuring w)

end Sys2Proof.Machine
end

