-- ==== Sys2Proof/Machine/Step.lean ====
section
/-! DEFINITION. One step of the machine: the next host move, or nothing while the PCE is idle (R91, R262). -/

namespace Sys2Proof.Machine

/-- One step. The move is taken off the inbox first. -/
def step (s : State) : Host.Outcome State Fault Refusal :=
  match s.inbox with
  | [] => .next s
  | m :: rest => hostMove m { s with inbox := rest }

/-- The state in which the very next step runs the command word `w`: the host presents it before its other moves. Bits
above `nbits` are zero (R92: a command is exactly 64 bits). -/
def State.withFetchWord (s : State) (nbits w : Nat) : State :=
  { s with inbox := .command (BitVec.ofNat 64 (w % 2 ^ nbits)) :: s.inbox }

end Sys2Proof.Machine
end

