-- ==== Sys2Proof/Machine/Assembler.lean ====
section
/-! DEFINITION. The assembler's `q(..)` literal and pseudo-instructions, R100 and R101. They belong to the host's tools:
no step of the machine uses them. -/

namespace Sys2Proof.Machine

/-- `q(<decimal>)`, R100, for the decimal `mantissa / 10^digits`: the integer nearest to 65536 times it, ties away from
zero, as a two's-complement word; refused outside `-32768 ≤ v < 32768`. -/
def qWord (mantissa : Int) (digits : Nat) : Option Word :=
  let den := 10 ^ digits
  if -32768 * (den : Int) ≤ mantissa ∧ mantissa < 32768 * (den : Int) then
    let magnitude := (2 * (mantissa.natAbs * 65536) + den) / (2 * den)
    some (BitVec.ofInt 32 (if mantissa < 0 then -(magnitude : Int) else (magnitude : Int)))
  else none

/-- The pseudo-instructions of R101. -/
inductive Pseudo where
  /-- `SETWINSQ n`. -/
  | setwinsq (n : Half)
  /-- `SETDST base, w, h, stride`. -/
  | setdst (base : Word) (w h : Half) (stride : Word)
  /-- `SETSRC base, w, h, stride`. -/
  | setsrc (base : Word) (w h : Half) (stride : Word)
  /-- `SETINPLACE base, w, h, stride`. -/
  | setinplace (base : Word) (w h : Half) (stride : Word)
  /-- `ENSUREFRESH`. -/
  | ensurefresh
  /-- `GETVALUE i`. -/
  | getvalue (i : Byte)
  deriving DecidableEq, Repr

/-- The commands a pseudo-instruction stands for, in order. -/
def Pseudo.expand : Pseudo → List Instr
  | .setwinsq n => [.setwin n n]
  | .setdst base w h stride => [.setdstbase base, .setdstdim w h, .setdststride stride]
  | .setsrc base w h stride => [.setsrcbase base, .setsrcdim w h, .setsrcstride stride]
  | .setinplace base w h stride =>
    [.setdstbase base, .setdstdim w h, .setdststride stride, .setsrcbase base, .setsrcdim w h, .setsrcstride stride]
  | .ensurefresh => [.fresh]
  | .getvalue i => [.lutrd i]

end Sys2Proof.Machine
end

