-- ==== Sys2Proof/Safety.lean ====
section
/-! DEFINITION. What holds at every instant between commands (the invariant of R23, R33, R246), and what counts as a safe
run: one that no step stops. -/

namespace Sys2Proof.Machine

/-- LASTERR and the sticky flags agree: LASTERR is 0 exactly when no flag is set, and otherwise names a flag that is set
(R246, R232). -/
def Status.consistent (st : Status) : Prop :=
  st.lastErr.toNat ≤ 4 ∧
  (st.lastErr = 0#4 ↔ (st.eCfg = false ∧ st.eDim = false ∧ st.eDesc = false ∧ st.eIll = false)) ∧
  (st.lastErr = 1#4 → st.eCfg = true) ∧ (st.lastErr = 2#4 → st.eDim = true) ∧
  (st.lastErr = 3#4 → st.eDesc = true) ∧ (st.lastErr = 4#4 → st.eIll = true)

/-- The invariant of the machine between commands. -/
structure State.Inv (s : State) : Prop where
  /-- The parameters meet R9. -/
  params : s.params.legal = true
  /-- `BASE` holds a legal base (R23). -/
  base : baseLegal s.base = true
  /-- `DELTA` is in `[-1, 1]` (R23). -/
  delta : unitLegal s.delta = true
  /-- `CA` is in `[-1, 1]` (R23). -/
  ca : unitLegal s.ca = true
  /-- `CB` is in `[-1, 1]` (R23). -/
  cb : unitLegal s.cb = true
  /-- The window has at least one pixel each way (R23). -/
  win : windowLegal (lowHalf s.win) (highHalf s.win) = true
  /-- The record of errors is consistent (R246). -/
  errors : s.status.consistent
  /-- The cache invariant, R33. -/
  cache : s.status.dirty = false → s.lut = some (lutGen s.strat s.base s.delta s.ca s.cb)
  /-- The memory is in canonical form. -/
  memCanonical : s.mem.wf = true
  /-- The memory lists only addresses that exist (R60). -/
  memExists : s.mem.within s.params.memBytes = true

/-- A host move that writes only where memory exists. -/
def HostMove.addressable (memBytes : Nat) : HostMove → Bool
  | .command _ => true
  | .memWrite a _ => decide (a < memBytes)
  | .reset => true
  | .resetDuring _ => true

/-- The next step does not stop. -/
def State.Safe (s : State) : Prop := ∃ t, step s = .next t

/-- `k` steps do not stop. -/
def State.SafeRun (k : Nat) (s : State) : Prop := ∃ t : State, Sys2Proof.core.run k s = .next t

/-! ## The conditions of the rules, as statements cite them -/

/-- The four conditions of R183 on a descriptor. -/
def Descriptor.Usable (d : Descriptor) (memBytes : Nat) : Prop :=
  1 ≤ d.width ∧ 1 ≤ d.height ∧ 4 * d.width ≤ d.stride ∧
    d.base + (d.height - 1) * d.stride + 4 * d.width ≤ memBytes

/-- The checks of a local `APPLY` pass (R181, R183, R184, R185). -/
def State.LocalReady (s : State) : Prop :=
  s.dst.width = s.src.width ∧ s.dst.height = s.src.height ∧ s.dst.Usable s.params.memBytes ∧
    s.src.Usable s.params.memBytes ∧ s.dst.width * s.dst.height ≤ s.params.scratchPixels

/-- The two buffers are the same buffer or share no byte (R70, R71). -/
def State.BuffersApart (s : State) : Prop :=
  (s.dst.base = s.src.base ∧ s.dst.stride = s.src.stride) ∨ ∀ a, ¬(s.dst.covers a ∧ s.src.covers a)

/-- `a` is an in-scope byte of the destination: a lane of R26 of a pixel of the image (R66). -/
def State.InScope (s : State) (a : Nat) : Prop :=
  ∃ p : Site, p.x < s.dst.width ∧ p.y < s.dst.height ∧ s.scope.getLsbD p.c = true ∧ a = s.dst.addr p

/-- Commands that set DIRTY: `MARKDIRTY`, and a configuration setter whose operand its rule accepts (R32, R120). -/
def marksDirty : Instr → Bool
  | .setstrat v => decide (v.toNat ≤ 2)
  | .setscope v => decide (v.toNat ≤ 7)
  | .setbase v => decide (0 < v.toInt ∧ v ≠ 0x00010000#32)
  | .setdelta v => decide (-65536 ≤ v.toInt ∧ v.toInt ≤ 65536)
  | .seta v => decide (-65536 ≤ v.toInt ∧ v.toInt ≤ 65536)
  | .setb v => decide (-65536 ≤ v.toInt ∧ v.toInt ≤ 65536)
  | .setwin ww wh => decide (ww ≠ 0#16 ∧ wh ≠ 0#16)
  | .markdirty => true
  | .setdstbase _ | .setdstdim _ _ | .setdststride _ | .setsrcbase _ | .setsrcdim _ _ | .setsrcstride _ => false
  | .fresh | .lutrd _ | .rdreg _ | .clrerr | .apply => false

/-- The EnsureFresh callers of R164: `FRESH`, `LUTRD`, and an `APPLY` under LOG or CONTRAST that passes its checks. -/
def State.callsEnsureFresh (s : State) : Instr → Bool
  | .fresh => true
  | .lutrd _ => true
  | .apply => decide (s.strat ≠ .flatField ∧ s.applyError = none)
  | .setstrat _ | .setscope _ | .setbase _ | .setdelta _ | .seta _ | .setb _ | .setwin _ _ | .markdirty => false
  | .setdstbase _ | .setdstdim _ _ | .setdststride _ | .setsrcbase _ | .setsrcdim _ _ | .setsrcstride _ => false
  | .rdreg _ | .clrerr => false

/-- Several commands in order. -/
def execAll : List Instr → State → Host.Outcome State Fault Refusal
  | [], s => .next s
  | i :: rest, s =>
    match exec i s with
    | .next t => execAll rest t
    | .fault r => .fault r
    | .refused r => .refused r

/-- None of the commands, as they run from `s`, is an EnsureFresh caller. -/
def State.quiet : List Instr → State → Bool
  | [], _ => true
  | i :: rest, s =>
    match exec i s with
    | .next t => !s.callsEnsureFresh i && State.quiet rest t
    | _ => false

end Sys2Proof.Machine
end

