-- ==== Sys2Proof/WellFormed.lean ====
section
/-! DEFINITION. Which command words are well formed: the negation of R98's list of illegal commands. An `Instr` has no
ill-formed terms: each operand is a bit vector of exactly its field's width, and a value a command does not accept is an
error of that command, not an encoding error (R99). So the checks are on words. -/

namespace Sys2Proof

/-- Check 1: the opcode is one of the 19 of R96. -/
def opcodeAssigned (w : CommandWord) : Bool := opcodeTable.any fun r => r.op = opField w

/-- Check 2: the reserved field is zero. -/
def reservedZero (w : CommandWord) : Bool := rsvField w = 0#24

/-- Check 3: a `Z` command has `imm = 0`. -/
def noOperandZero (w : CommandWord) : Bool :=
  opcodeTable.all fun r => !(decide (r.op = opField w) && decide (r.format = .z)) || decide (immField w = 0#32)

/-- Check 4: an `I8` command has `imm[31:8] = 0`. -/
def indexFits (w : CommandWord) : Bool :=
  opcodeTable.all fun r => !(decide (r.op = opField w) && decide (r.format = .i8)) || decide (highBits (immField w) = 0#24)

/-- A word that is not an illegal command (R98). -/
def wellFormedWord (w : CommandWord) : Bool :=
  opcodeAssigned w && reservedZero w && noOperandZero w && indexFits w

end Sys2Proof
end

