-- ==== Sys2Proof/Certificates/Slice0/Obligations.lean ====
section
/-! DEFINITION. What is claimed of the machine. Each statement's docstring names the rule of spec/ it rests on; where a
clause rests on a choice of the model's, it names the log entry. -/

open Sys2Proof Sys2Proof.Machine

/-! ## Encoding -/

/-- Decoding the word of any command gives the command back, every operand at every value (R92, R93, R96). -/
def Obligations.DecodeOfEncode : Prop := ∀ i : Instr, decode (encode i) = some i

/-- Each legal word has one meaning: a word that decodes is the word of what it decodes to (R92, R93, R96). -/
def Obligations.EncodeOfDecode : Prop := ∀ (w : CommandWord) (i : Instr), decode w = some i → encode i = w

/-- R98: which words are illegal, what an illegal word does, and `RDREG` of an index that does not exist. -/
def Obligations.IllegalCommands : Prop :=
  (∀ w : CommandWord, decode w = none ↔
    (w.extractLsb' 56 8 ∉ [0x01#8, 0x02#8, 0x03#8, 0x04#8, 0x05#8, 0x06#8, 0x07#8, 0x10#8, 0x11#8, 0x12#8, 0x13#8,
        0x14#8, 0x15#8, 0x20#8, 0x21#8, 0x22#8, 0x23#8, 0x24#8, 0x30#8] ∨
      w.extractLsb' 32 24 ≠ 0#24 ∨
      (w.extractLsb' 56 8 ∈ [0x20#8, 0x21#8, 0x24#8, 0x30#8] ∧ w.extractLsb' 0 32 ≠ 0#32) ∨
      (w.extractLsb' 56 8 ∈ [0x22#8, 0x23#8] ∧ w.extractLsb' 8 24 ≠ 0#24))) ∧
  (∀ (w : CommandWord) (s : State) (rest : List HostMove), s.inbox = .command w :: rest → decode w = none →
    step s = .next { s with inbox := rest, status := { s.status with eIll := true, lastErr := 4#4 },
                            responses := s.responses ++ [{ status := 4#8, data := 0#32 }] }) ∧
  (∀ (idx : Byte) (s : State), 0x0F < idx.toNat →
    exec (.rdreg idx) s = .next { s with status := { s.status with eIll := true, lastErr := 4#4 },
                                         responses := s.responses ++ [{ status := 4#8, data := 0#32 }] })

/-- R95: every word matches exactly one row of the opcode map, and decodes to a command of that row, or matches none and
is illegal. -/
def Obligations.OneRowOrIllegal : Prop :=
  ∀ w : CommandWord,
    (decode w = none ∧ ∀ r ∈ opcodeTable, r.accepts w = false) ∨
    (∃ i r, decode w = some i ∧ r ∈ opcodeTable ∧ r.accepts w = true ∧ r.mnemonic = i.mnemonic ∧
      ∀ r' ∈ opcodeTable, r'.accepts w = true → r' = r)

/-- The four well-formedness checks together say exactly that the word decodes (R95, R98). -/
def Obligations.WellFormedWordsDecode : Prop :=
  ∀ w : CommandWord, wellFormedWord w = true ↔ ∃ i, decode w = some i

/-- Words written out from the encodings of R96 and the examples of the command rules. -/
def Obligations.ExampleWordsDecode : Prop :=
  decode 0x0100000000000002#64 = some (.setstrat 2#32) ∧
  decode 0x0300000000020000#64 = some (.setbase 0x00020000#32) ∧
  decode 0x04000000FFFFC000#64 = some (.setdelta 0xFFFFC000#32) ∧
  decode 0x0700000000050003#64 = some (.setwin 3#16 5#16) ∧
  decode 0x1100000001E00280#64 = some (.setdstdim 640#16 480#16) ∧
  decode 0x150000000000000C#64 = some (.setsrcstride 12#32) ∧
  decode 0x2200000000000080#64 = some (.lutrd 128#8) ∧
  decode 0x2300000000000010#64 = some (.rdreg 16#8) ∧
  decode 0x3000000000000000#64 = some .apply ∧
  decode 0x0300000100020000#64 = none ∧ decode 0x2000000000000001#64 = none

/-! ## The port -/

/-- A step runs the command whose word the host presents (R90, R91), with nothing around it but taking the word off the
port. -/
def Obligations.StepRunsThePresentedCommand : Prop :=
  ∀ (s : State) (w : CommandWord) (rest : List HostMove) (i : Instr),
    s.inbox = .command w :: rest → decode w = some i → step s = exec i { s with inbox := rest }

/-- Between commands the machine is idle and keeps all state (R262), and the host may write a byte of pixel memory (R60,
R72; the move is the model's, logs 1 and 13): that byte alone changes. -/
def Obligations.IdleAndHostWrites : Prop :=
  (∀ s : State, s.inbox = [] → step s = .next s) ∧
  (∀ (s : State) (a : Nat) (v : Byte) (rest : List HostMove), s.inbox = .memWrite a v :: rest → s.mem.wf = true →
    (a < s.params.memBytes → ∃ m : Memory, step s = .next { s with inbox := rest, mem := m } ∧ m.read a = v ∧
      ∀ b, b ≠ a → m.read b = s.mem.read b) ∧
    (s.params.memBytes ≤ a → step s = .fault .noSuchAddress))

/-- R102 and R241: every command produces exactly one response; its status is one of the five codes; its data is zero but
for a successful `LUTRD` (the table entry) and a successful `RDREG` (the register). -/
def Obligations.OneResponsePerCommand : Prop :=
  ∀ (s : State) (w : CommandWord) (rest : List HostMove), s.inbox = .command w :: rest →
    ∃ (t : State) (r : Response), step s = .next t ∧ t.inbox = rest ∧ t.responses = s.responses ++ [r] ∧
      r.status.toNat ≤ 4 ∧ (r.status ≠ 0#8 → r.data = 0#32) ∧
      (∀ idx, decode w = some (.lutrd idx) → r.status = 0#8 ∧ r.data = (t.lutByte idx).setWidth 32) ∧
      (∀ idx, decode w = some (.rdreg idx) → r.status = 0#8 → s.readReg idx = some r.data) ∧
      ((∀ idx, decode w ≠ some (.lutrd idx)) → (∀ idx, decode w ≠ some (.rdreg idx)) → r.data = 0#32)

/-- Reset between commands (R270, R271): every register reads its reset value, the table holds nothing, the pixel memory is
not touched; and the model's reset state has the same registers. That the table then holds "no value" is the model's choice for
"unspecified" (log 5); that the parameters, the host's further moves and the responses already given survive reset is the
model's deduction (log 11). -/
def Obligations.ResetGivesTheResetValues : Prop :=
  (∀ (s : State) (rest : List HostMove), s.inbox = .reset :: rest →
    ∃ t : State, step s = .next t ∧ (∀ idx, t.readReg idx = State.reset.readReg idx) ∧ t.lut = none ∧
      t.mem = s.mem ∧ t.params = s.params ∧ t.responses = s.responses ∧ t.inbox = rest) ∧
  ((List.range 17).map fun i => State.reset.readReg (BitVec.ofNat 8 i)) =
    [some 0x554D5807#32, some 1#32, some 0#32, some 0#32, some 7#32, some 0x00020000#32, some 0#32, some 0#32, some 0#32,
     some 0x00010001#32, some 0#32, some 0#32, some 0#32, some 0#32, some 0#32, some 0#32, none]

/-- Reset while a command executes (R272): no response, every register at its reset value, the table without contents, and each
byte of memory is the old one, or it is an in-scope destination byte of an `APPLY` past validation and is the one that `APPLY`
would have left. The move and the free choice of bytes are the model's choice (log 12), so is the table's "no value" (log 5);
that earlier responses survive is the model's deduction (log 11). -/
def Obligations.ResetDuringACommand : Prop :=
  ∀ (s : State) (w : CommandWord) (rest : List HostMove), s.inbox = .resetDuring w :: rest → s.mem.wf = true →
    ∃ t : State, step s = .next t ∧ t.responses = s.responses ∧ (∀ idx, t.readReg idx = State.reset.readReg idx) ∧
      t.lut = none ∧
      ∀ a, t.mem.read a = s.mem.read a ∨
        (decode w = some .apply ∧ s.applyError = none ∧ s.InScope a ∧
          ∃ u : State, exec .apply { s with inbox := rest } = .next u ∧ t.mem.read a = u.mem.read a)

/-! ## Configuration setters -/

/-- R121 and R25: 0 selects LOG, 1 FLATFIELD, 2 CONTRAST; 3 and above are rejected; the register reads as the code. -/
def Obligations.SetstratSelectsTheStrategy : Prop :=
  ∀ (v : Word) (s : State),
    decode (0x01#8 ++ (0#24 ++ v)) = some (.setstrat v) ∧
    (2 < v.toNat → exec (.setstrat v) s =
      .next { s with status := { s.status with eCfg := true, lastErr := 1#4 },
                     responses := s.responses ++ [{ status := 1#8, data := 0#32 }] }) ∧
    (v.toNat ≤ 2 → ∃ st : Strategy, st.word = v ∧ exec (.setstrat v) s =
      .next { s with strat := st, status := { s.status with dirty := true },
                     responses := s.responses ++ [{ status := 0#8, data := 0#32 }] }) ∧
    (v = 0#32 → exec (.setstrat v) s =
      .next { s with strat := .log, status := { s.status with dirty := true },
                     responses := s.responses ++ [{ status := 0#8, data := 0#32 }] }) ∧
    (v = 1#32 → exec (.setstrat v) s =
      .next { s with strat := .flatField, status := { s.status with dirty := true },
                     responses := s.responses ++ [{ status := 0#8, data := 0#32 }] }) ∧
    (v = 2#32 → exec (.setstrat v) s =
      .next { s with strat := .contrast, status := { s.status with dirty := true },
                     responses := s.responses ++ [{ status := 0#8, data := 0#32 }] }) ∧
    ({ s with strat := .log } : State).readReg 0x03#8 = some 0#32 ∧
    ({ s with strat := .flatField } : State).readReg 0x03#8 = some 1#32 ∧
    ({ s with strat := .contrast } : State).readReg 0x03#8 = some 2#32

/-- R122. -/
def Obligations.SetscopeSelectsTheLanes : Prop :=
  ∀ (v : Word) (s : State),
    decode (0x02#8 ++ (0#24 ++ v)) = some (.setscope v) ∧
    (7 < v.toNat → exec (.setscope v) s =
      .next { s with status := { s.status with eCfg := true, lastErr := 1#4 },
                     responses := s.responses ++ [{ status := 1#8, data := 0#32 }] }) ∧
    (v.toNat ≤ 7 → ∃ m : BitVec 3, m.setWidth 32 = v ∧ exec (.setscope v) s =
      .next { s with scope := m, status := { s.status with dirty := true },
                     responses := s.responses ++ [{ status := 0#8, data := 0#32 }] })

/-- R123. -/
def Obligations.SetbaseChecksAndWrites : Prop :=
  ∀ (v : Word) (s : State),
    decode (0x03#8 ++ (0#24 ++ v)) = some (.setbase v) ∧
    (v.toInt ≤ 0 ∨ v = 0x00010000#32 → exec (.setbase v) s =
      .next { s with status := { s.status with eCfg := true, lastErr := 1#4 },
                     responses := s.responses ++ [{ status := 1#8, data := 0#32 }] }) ∧
    (0 < v.toInt → v ≠ 0x00010000#32 → exec (.setbase v) s =
      .next { s with base := v, status := { s.status with dirty := true },
                     responses := s.responses ++ [{ status := 0#8, data := 0#32 }] })

/-- R124. -/
def Obligations.SetdeltaChecksAndWrites : Prop :=
  ∀ (v : Word) (s : State),
    decode (0x04#8 ++ (0#24 ++ v)) = some (.setdelta v) ∧
    (v.toInt < -65536 ∨ 65536 < v.toInt → exec (.setdelta v) s =
      .next { s with status := { s.status with eCfg := true, lastErr := 1#4 },
                     responses := s.responses ++ [{ status := 1#8, data := 0#32 }] }) ∧
    (-65536 ≤ v.toInt → v.toInt ≤ 65536 → exec (.setdelta v) s =
      .next { s with delta := v, status := { s.status with dirty := true },
                     responses := s.responses ++ [{ status := 0#8, data := 0#32 }] })

/-- R125. -/
def Obligations.SetaChecksAndWrites : Prop :=
  ∀ (v : Word) (s : State),
    decode (0x05#8 ++ (0#24 ++ v)) = some (.seta v) ∧
    (v.toInt < -65536 ∨ 65536 < v.toInt → exec (.seta v) s =
      .next { s with status := { s.status with eCfg := true, lastErr := 1#4 },
                     responses := s.responses ++ [{ status := 1#8, data := 0#32 }] }) ∧
    (-65536 ≤ v.toInt → v.toInt ≤ 65536 → exec (.seta v) s =
      .next { s with ca := v, status := { s.status with dirty := true },
                     responses := s.responses ++ [{ status := 0#8, data := 0#32 }] })

/-- R126. -/
def Obligations.SetbChecksAndWrites : Prop :=
  ∀ (v : Word) (s : State),
    decode (0x06#8 ++ (0#24 ++ v)) = some (.setb v) ∧
    (v.toInt < -65536 ∨ 65536 < v.toInt → exec (.setb v) s =
      .next { s with status := { s.status with eCfg := true, lastErr := 1#4 },
                     responses := s.responses ++ [{ status := 1#8, data := 0#32 }] }) ∧
    (-65536 ≤ v.toInt → v.toInt ≤ 65536 → exec (.setb v) s =
      .next { s with cb := v, status := { s.status with dirty := true },
                     responses := s.responses ++ [{ status := 0#8, data := 0#32 }] })

/-- R127. -/
def Obligations.SetwinChecksAndWrites : Prop :=
  ∀ (ww wh : Half) (s : State),
    decode (0x07#8 ++ (0#24 ++ (wh ++ ww))) = some (.setwin ww wh) ∧
    (ww = 0#16 ∨ wh = 0#16 → exec (.setwin ww wh) s =
      .next { s with status := { s.status with eCfg := true, lastErr := 1#4 },
                     responses := s.responses ++ [{ status := 1#8, data := 0#32 }] }) ∧
    (ww ≠ 0#16 → wh ≠ 0#16 → exec (.setwin ww wh) s =
      .next { s with win := wh ++ ww, status := { s.status with dirty := true },
                     responses := s.responses ++ [{ status := 0#8, data := 0#32 }] })

/-! ## Descriptor setters -/

/-- R141 to R146, and with them R140: each setter writes its operand into its register, touches nothing else and cannot
fail; a dimension's halves are the width and the height. -/
def Obligations.DescriptorSettersWrite : Prop :=
  ∀ (v : Word) (w h : Half) (s : State),
    (decode (0x10#8 ++ (0#24 ++ v)) = some (.setdstbase v) ∧ exec (.setdstbase v) s =
      .next { s with dstBase := v, responses := s.responses ++ [{ status := 0#8, data := 0#32 }] }) ∧
    (decode (0x11#8 ++ (0#24 ++ (h ++ w))) = some (.setdstdim w h) ∧ exec (.setdstdim w h) s =
      .next { s with dstDim := h ++ w, responses := s.responses ++ [{ status := 0#8, data := 0#32 }] } ∧
      ({ s with dstDim := h ++ w } : State).dst.width = w.toNat ∧
      ({ s with dstDim := h ++ w } : State).dst.height = h.toNat) ∧
    (decode (0x12#8 ++ (0#24 ++ v)) = some (.setdststride v) ∧ exec (.setdststride v) s =
      .next { s with dstStride := v, responses := s.responses ++ [{ status := 0#8, data := 0#32 }] }) ∧
    (decode (0x13#8 ++ (0#24 ++ v)) = some (.setsrcbase v) ∧ exec (.setsrcbase v) s =
      .next { s with srcBase := v, responses := s.responses ++ [{ status := 0#8, data := 0#32 }] }) ∧
    (decode (0x14#8 ++ (0#24 ++ (h ++ w))) = some (.setsrcdim w h) ∧ exec (.setsrcdim w h) s =
      .next { s with srcDim := h ++ w, responses := s.responses ++ [{ status := 0#8, data := 0#32 }] } ∧
      ({ s with srcDim := h ++ w } : State).src.width = w.toNat ∧
      ({ s with srcDim := h ++ w } : State).src.height = h.toNat) ∧
    (decode (0x15#8 ++ (0#24 ++ v)) = some (.setsrcstride v) ∧ exec (.setsrcstride v) s =
      .next { s with srcStride := v, responses := s.responses ++ [{ status := 0#8, data := 0#32 }] })

/-! ## The table -/

/-- R12: the clamp of an integer: 0 below 0, 255 at or above 255, the integer itself between; non-decreasing; and for the
floor of a real it is the clamp of the real, non-decreasing too. -/
def Obligations.ClampToAByte : Prop :=
  (∀ v : Int, (v < 0 → clamp8 v = 0#8) ∧ (255 ≤ v → clamp8 v = 255#8) ∧
    (0 ≤ v → v ≤ 255 → ((clamp8 v).toNat : Int) = v)) ∧
  (∀ v w : Int, v ≤ w → (clamp8 v).toNat ≤ (clamp8 w).toNat) ∧
  (∀ x : ℝ, (x < 0 → clamp8 ⌊x⌋ = 0#8) ∧ (255 ≤ x → clamp8 ⌊x⌋ = 255#8) ∧
    (0 ≤ x → x < 255 → ((clamp8 ⌊x⌋).toNat : Int) = ⌊x⌋)) ∧
  (∀ x y : ℝ, x ≤ y → (clamp8 ⌊x⌋).toNat ≤ (clamp8 ⌊y⌋).toNat)

/-- R151: for every legal base the table the model computes by integer comparisons is the one the rule defines over the
reals, with the exact logarithm and one floor. -/
def Obligations.LogLutIsTheRealFormula : Prop :=
  ∀ (b d : Word) (i : Byte), 0 < b.toInt → b ≠ 0x00010000#32 →
    (logLut b d).entry i =
      clamp8 ⌊255 * Real.log ((16711680 + ((b.toInt : ℝ) - 65536) * (i.toNat : ℝ)) / 16711680) /
        Real.log ((b.toInt : ℝ) / 65536) + (d.toInt : ℝ) / 512⌋

/-- R152 (L3): the logarithmic table is non-decreasing, for every legal base. -/
def Obligations.LogLutIsMonotone : Prop :=
  ∀ (b d : Word) (i j : Byte), 0 < b.toInt → b ≠ 0x00010000#32 → i.toNat ≤ j.toNat →
    ((logLut b d).entry i).toNat ≤ ((logLut b d).entry j).toNat

/-- R152 (L4): the end points of the logarithmic table, for every legal base; with `D = 0` they are 0 and 255. -/
def Obligations.LogLutEndPoints : Prop :=
  ∀ (b d : Word), 0 < b.toInt → b ≠ 0x00010000#32 →
    (logLut b d).entry 0#8 = clamp8 (d.toInt / 512) ∧
    (logLut b d).entry 255#8 = clamp8 (255 + d.toInt / 512) ∧
    (logLut b 0#32).entry 0#8 = 0#8 ∧ (logLut b 0#32).entry 255#8 = 255#8

/-- R152 (L5): for a base above 1 the curve lies on or above the identity, for a base below 1 on or below it. -/
def Obligations.LogLutShape : Prop :=
  ∀ (b : Word) (i : Byte), 0 < b.toInt → b ≠ 0x00010000#32 →
    (65536 < b.toInt → i.toNat ≤ ((logLut b 0#32).entry i).toNat) ∧
    (b.toInt < 65536 → ((logLut b 0#32).entry i).toNat ≤ i.toNat)

/-- R152 (L6): base `1 + 2^-16` with `delta = 0` gives the identity table; base `1 - 2^-16` gives `i - 1` strictly inside. -/
def Obligations.LogLutIdentitySetting : Prop :=
  (∀ i : Byte, (logLut 0x00010001#32 0#32).entry i = i) ∧
  (∀ i : Byte, 0 < i.toNat → i.toNat < 255 → ((logLut 0x0000FFFF#32 0#32).entry i).toNat = i.toNat - 1)

/-- R154: the contrast table in integers, and that it is `255*(t + a*(t - 1/2) + b)` with `t = i/255`. -/
def Obligations.ConLutIsTheLinearFormula : Prop :=
  ∀ (a bo : Word) (i : Byte),
    let num : Int := 131072 * (i.toNat : Int) + a.toInt * (2 * (i.toNat : Int) - 255) + 510 * bo.toInt
    (num < 0 → (conLut a bo).entry i = 0#8) ∧
    (0 ≤ num → (((conLut a bo).entry i).toNat : Int) = min 255 (num / 131072)) ∧
    (num : ℚ) / 131072 = 255 * ((i.toNat : ℚ) / 255 + (a.toInt : ℚ) / 65536 * ((i.toNat : ℚ) / 255 - 1 / 2) +
      (bo.toInt : ℚ) / 65536)

/-- R155 (K1 to K5). -/
def Obligations.ConLutProperties : Prop :=
  (∀ (a bo : Word) (i : Byte), ((conLut a bo).entry i).toNat ≤ 255) ∧
  (∀ (a bo : Word) (i : Nat), -65536 ≤ a.toInt → conNum a bo (i + 1) - conNum a bo i = 131072 + 2 * a.toInt ∧
    0 ≤ 131072 + 2 * a.toInt ∧ (131072 + 2 * a.toInt = 0 ↔ a = 0xFFFF0000#32)) ∧
  (∀ (a bo : Word) (i j : Byte), -65536 ≤ a.toInt → i.toNat ≤ j.toNat →
    ((conLut a bo).entry i).toNat ≤ ((conLut a bo).entry j).toNat) ∧
  (∀ i : Byte, (conLut 0#32 0#32).entry i = i) ∧
  (∀ (bo : Word) (i : Byte), (conLut 0#32 bo).entry i = clamp8 ((65536 * (i.toNat : Int) + 255 * bo.toInt) / 65536)) ∧
  (∀ i : Byte, (conLut 0xFFFF0000#32 0#32).entry i = 127#8 ∧ (conLut 0#32 0x00010000#32).entry i = 255#8 ∧
    (conLut 0#32 0xFFFF0000#32).entry i = 0#8 ∧
    (conLut 0x00010000#32 0#32).entry i = clamp8 ((4 * (i.toNat : Int) - 255) / 2)) ∧
  (∀ i : Byte, (i.toNat ≤ 64 → (conLut 0x00010000#32 0#32).entry i = 0#8) ∧
    (192 ≤ i.toNat → (conLut 0x00010000#32 0#32).entry i = 255#8))

/-- R161. -/
def Obligations.MarkdirtySetsTheFlag : Prop :=
  ∀ s : State, decode 0x2000000000000000#64 = some .markdirty ∧ exec .markdirty s =
    .next { s with status := { s.status with dirty := true },
                   responses := s.responses ++ [{ status := 0#8, data := 0#32 }] }

/-- R162, with the rebuild step it runs (R160) and the three formulas the table comes from (R150, R156). -/
def Obligations.FreshRebuildsAStaleTable : Prop :=
  ∀ s : State, decode 0x2100000000000000#64 = some .fresh ∧
    (s.status.dirty = false → exec .fresh s =
      .next { s with responses := s.responses ++ [{ status := 0#8, data := 0#32 }] }) ∧
    (s.status.dirty = true → ∃ table : Lut,
      (s.strat = .log → table = logLut s.base s.delta) ∧ (s.strat = .contrast → table = conLut s.ca s.cb) ∧
      (s.strat = .flatField → ∀ i : Byte, table.entry i = i) ∧
      exec .fresh s =
        .next { s with status := { s.status with dirty := false }, lut := some table, rbcnt := s.rbcnt + 1#32,
                       responses := s.responses ++ [{ status := 0#8, data := 0#32 }] })

/-- R163: a stale table is rebuilt first; the response is the entry, widened with zeros. It completes in every state; a
fresh table without contents is a state no run reaches. -/
def Obligations.LutrdReadsTheTable : Prop :=
  ∀ (idx : Byte) (s : State),
    decode (0x22#8 ++ (0#24 ++ (0#24 ++ idx))) = some (.lutrd idx) ∧
    (∀ table : Lut, s.status.dirty = false → s.lut = some table → exec (.lutrd idx) s =
      .next { s with responses := s.responses ++ [{ status := 0#8, data := (table.entry idx).setWidth 32 }] }) ∧
    (s.status.dirty = true → exec (.lutrd idx) s =
      .next { s with status := { s.status with dirty := false }, lut := some (lutGen s.strat s.base s.delta s.ca s.cb),
                     rbcnt := s.rbcnt + 1#32,
                     responses := s.responses ++
                       [{ status := 0#8, data := ((lutGen s.strat s.base s.delta s.ca s.cb).entry idx).setWidth 32 }] }) ∧
    (∃ t : State, exec (.lutrd idx) s = .next t)

/-- R31 and R163: in a state that meets the invariant `LUTRD` answers with an entry of the table of the present parameters,
never a stale or unspecified byte. -/
def Obligations.LutrdIsNeverStale : Prop :=
  ∀ (idx : Byte) (s : State), s.Inv → ∃ t : State, exec (.lutrd idx) s = .next t ∧
    t.responses = s.responses ++
      [{ status := 0#8, data := ((lutGen s.strat s.base s.delta s.ca s.cb).entry idx).setWidth 32 }]

/-- R31, 93 U3: while DIRTY is set no command depends on what the table holds. -/
def Obligations.StaleTableIsUnobservable : Prop :=
  ∀ (s : State) (l : Option Lut) (i : Instr), s.status.dirty = true →
    ∃ t : State, exec i s = .next t ∧
      exec i { s with lut := l } = .next { t with lut := if t.status.dirty then l else t.lut }

/-- R164: rebuild laziness, over any sequence of commands. From a state whose table is fresh, a sequence without an
EnsureFresh caller moves neither the table nor RBCNT, and the next caller raises RBCNT by one exactly when a command of the
sequence marked the table dirty. From reset the first caller raises RBCNT from 0 to 1. A command that is no caller never
changes the table or RBCNT. -/
def Obligations.RebuildLaziness : Prop :=
  (∀ (s : State) (between : List Instr) (caller : Instr) (t u : State), s.status.dirty = false →
    s.quiet between = true → execAll between s = .next t → t.callsEnsureFresh caller = true → exec caller t = .next u →
      t.lut = s.lut ∧ t.rbcnt = s.rbcnt ∧
      u.rbcnt = (if between.any marksDirty then s.rbcnt + 1#32 else s.rbcnt) ∧ u.status.dirty = false) ∧
  (∀ (before : List Instr) (caller : Instr) (t u : State), State.reset.quiet before = true →
    execAll before State.reset = .next t → t.callsEnsureFresh caller = true → exec caller t = .next u →
      t.rbcnt = 0#32 ∧ u.rbcnt = 1#32) ∧
  (∀ (s t : State) (i : Instr), s.callsEnsureFresh i = false → exec i s = .next t →
    t.lut = s.lut ∧ t.rbcnt = s.rbcnt ∧ t.status.dirty = (s.status.dirty || marksDirty i))

/-! ## The invariant and safety -/

/-- Every step, a host move included, keeps the invariant: legal registers (R23), the cache invariant (R33), a consistent
error record (R246), memory in canonical form and within MEM_BYTES (R60). -/
def Obligations.StepKeepsTheInvariant : Prop := ∀ s t : State, s.Inv → step s = .next t → t.Inv

/-- The reset state meets the invariant. -/
def Obligations.ResetMeetsTheInvariant : Prop := State.reset.Inv

/-- A run stops only where the host writes memory that does not exist: with every host move addressable, any number of steps
from any state answers a next state (60_exceptions R240, 70_reset R290; the fault is the model's, log 13). -/
def Obligations.RunsNeverStop : Prop :=
  ∀ (k : Nat) (s : State), (∀ m ∈ s.inbox, m.addressable s.params.memBytes = true) → s.SafeRun k

/-- Every command completes in every state (R290), takes nothing from the port, and leaves the parameters as they are. -/
def Obligations.EveryCommandCompletes : Prop :=
  ∀ (i : Instr) (s : State), ∃ t : State, exec i s = .next t ∧ t.inbox = s.inbox ∧ t.params = s.params

/-! ## Errors and registers -/

/-- R246 and R247: a command whose response has status `k ≠ 0` sets the sticky flag of `k` and LASTERR and changes nothing
else; a command that succeeds leaves the error fields alone, `CLRERR` excepted. -/
def Obligations.ErrorsArePrecise : Prop :=
  ∀ (s t : State) (w : CommandWord) (rest : List HostMove) (r : Response), s.inbox = .command w :: rest →
    step s = .next t → t.responses = s.responses ++ [r] →
    (r.status ≠ 0#8 → r.data = 0#32 ∧
      t = { s with inbox := rest, responses := t.responses,
                   status := { dirty := s.status.dirty,
                               eCfg := s.status.eCfg || decide (r.status = 1#8),
                               eDim := s.status.eDim || decide (r.status = 2#8),
                               eDesc := s.status.eDesc || decide (r.status = 3#8),
                               eIll := s.status.eIll || decide (r.status = 4#8),
                               lastErr := r.status.setWidth 4 } }) ∧
    (r.status = 0#8 → decode w ≠ some .clrerr → t.status = { s.status with dirty := t.status.dirty })

/-- R232. -/
def Obligations.ClrerrClearsTheRecord : Prop :=
  ∀ s : State, decode 0x2400000000000000#64 = some .clrerr ∧ exec .clrerr s =
    .next { s with status := { dirty := s.status.dirty, eCfg := false, eDim := false, eDesc := false, eIll := false,
                               lastErr := 0#4 },
                   responses := s.responses ++ [{ status := 0#8, data := 0#32 }] }

/-- R231 with the register map R21: each index reads its register, with no side effect; unused bits read zero; an index
above 0x0F raises IllegalCommand. -/
def Obligations.RdregReadsTheRegister : Prop :=
  ∀ (s : State),
    (∀ idx : Byte, decode (0x23#8 ++ (0#24 ++ (0#24 ++ idx))) = some (.rdreg idx)) ∧
    (∀ p ∈ [(0x00#8, 0x554D5807#32),
        (0x01#8, 0#20 ++ s.status.lastErr ++ BitVec.ofBool s.status.eIll ++ BitVec.ofBool s.status.eDesc ++
          BitVec.ofBool s.status.eDim ++ BitVec.ofBool s.status.eCfg ++ 0#3 ++ BitVec.ofBool s.status.dirty),
        (0x02#8, s.rbcnt), (0x03#8, (match s.strat with | .log => 0#32 | .flatField => 1#32 | .contrast => 2#32)),
        (0x04#8, 0#29 ++ s.scope), (0x05#8, s.base), (0x06#8, s.delta),
        (0x07#8, s.ca), (0x08#8, s.cb), (0x09#8, s.win), (0x0A#8, s.dstBase), (0x0B#8, s.dstDim),
        (0x0C#8, s.dstStride), (0x0D#8, s.srcBase), (0x0E#8, s.srcDim), (0x0F#8, s.srcStride)],
      exec (.rdreg p.1) s = .next { s with responses := s.responses ++ [{ status := 0#8, data := p.2 }] }) ∧
    (∀ idx : Byte, 0x10 ≤ idx.toNat → exec (.rdreg idx) s =
      .next { s with status := { s.status with eIll := true, lastErr := 4#4 },
                     responses := s.responses ++ [{ status := 4#8, data := 0#32 }] })

/-- R21, column "written by": a command changes a register only if it is one of the commands that write it. ID never changes;
DIRTY is set by `MARKDIRTY` and the accepted configuration setters and cleared by an EnsureFresh caller, the error fields move
with a command that fails and with `CLRERR`; a rebuild, and nothing else, moves RBCNT and the table; only `APPLY` writes
memory. -/
def Obligations.RegistersHaveTheirWriters : Prop :=
  ∀ (s t : State) (i : Instr), exec i s = .next t →
    (t.strat ≠ s.strat → ∃ v, i = .setstrat v) ∧ (t.scope ≠ s.scope → ∃ v, i = .setscope v) ∧
    (t.base ≠ s.base → ∃ v, i = .setbase v) ∧ (t.delta ≠ s.delta → ∃ v, i = .setdelta v) ∧
    (t.ca ≠ s.ca → ∃ v, i = .seta v) ∧ (t.cb ≠ s.cb → ∃ v, i = .setb v) ∧
    (t.win ≠ s.win → ∃ ww wh, i = .setwin ww wh) ∧
    (t.dstBase ≠ s.dstBase → ∃ v, i = .setdstbase v) ∧ (t.dstDim ≠ s.dstDim → ∃ w h, i = .setdstdim w h) ∧
    (t.dstStride ≠ s.dstStride → ∃ v, i = .setdststride v) ∧
    (t.srcBase ≠ s.srcBase → ∃ v, i = .setsrcbase v) ∧ (t.srcDim ≠ s.srcDim → ∃ w h, i = .setsrcdim w h) ∧
    (t.srcStride ≠ s.srcStride → ∃ v, i = .setsrcstride v) ∧
    (t.rbcnt ≠ s.rbcnt ∨ t.lut ≠ s.lut → s.callsEnsureFresh i = true ∧ s.status.dirty = true) ∧
    (t.mem ≠ s.mem → i = .apply) ∧
    t.readReg 0x00#8 = some 0x554D5807#32 ∧
    (s.status.dirty = false → t.status.dirty = true → marksDirty i = true) ∧
    (s.status.dirty = true → t.status.dirty = false → s.callsEnsureFresh i = true) ∧
    (t.status.eCfg ≠ s.status.eCfg ∨ t.status.eDim ≠ s.status.eDim ∨ t.status.eDesc ≠ s.status.eDesc ∨
        t.status.eIll ≠ s.status.eIll ∨ t.status.lastErr ≠ s.status.lastErr →
      i = .clrerr ∨ ∃ k : Byte, k ≠ 0#8 ∧ t.responses = s.responses ++ [{ status := k, data := 0#32 }])

/-! ## APPLY -/

/-- R182: the checks of `APPLY` in their order; the first that fails names the error, and nothing but the error record
changes. R184: the error is DimensionMismatchError exactly under a local strategy with unequal dimensions. -/
def Obligations.ApplyChecksInOrder : Prop :=
  ∀ s : State,
    decode 0x3000000000000000#64 = some .apply ∧
    (s.strat = .log → ¬ s.dst.Usable s.params.memBytes → exec .apply s =
      .next { s with status := { s.status with eDesc := true, lastErr := 3#4 },
                     responses := s.responses ++ [{ status := 3#8, data := 0#32 }] }) ∧
    (s.strat ≠ .log → s.dstDim ≠ s.srcDim → exec .apply s =
      .next { s with status := { s.status with eDim := true, lastErr := 2#4 },
                     responses := s.responses ++ [{ status := 2#8, data := 0#32 }] }) ∧
    (s.strat ≠ .log → s.dstDim = s.srcDim →
      (¬ s.dst.Usable s.params.memBytes ∨ ¬ s.src.Usable s.params.memBytes ∨
        s.params.scratchPixels < s.dst.width * s.dst.height) → exec .apply s =
      .next { s with status := { s.status with eDesc := true, lastErr := 3#4 },
                     responses := s.responses ++ [{ status := 3#8, data := 0#32 }] }) ∧
    (∃ t : State, exec .apply s = .next t ∧ (t.responses = s.responses ++ [{ status := 2#8, data := 0#32 }] ↔
      s.strat ≠ .log ∧ (s.dst.width ≠ s.src.width ∨ s.dst.height ≠ s.src.height)))

/-- R186 and R188: under LOG every in-scope byte of the destination goes through the (refreshed) table; every other byte,
and every register but DIRTY and RBCNT, is as before. -/
def Obligations.ApplyLogMapsTheScope : Prop :=
  ∀ s : State, s.strat = .log → s.dst.Usable s.params.memBytes → s.mem.wf = true →
    ∃ m : Memory,
      exec .apply s = .next { s.ensureFresh with mem := m, responses := s.responses ++ [{ status := 0#8, data := 0#32 }] } ∧
      (∀ x y c, x < s.dst.width → y < s.dst.height → c ≤ 2 → s.scope.getLsbD c = true →
        m.read (s.dst.base + y * s.dst.stride + 4 * x + c) =
          s.ensureFresh.lutByte (s.mem.read (s.dst.base + y * s.dst.stride + 4 * x + c))) ∧
      (∀ a, ¬ s.InScope a → m.read a = s.mem.read a)

/-- R200, R206 and R212: under FLATFIELD, with the buffers apart, each in-scope destination byte is `FFCombine` of the source
byte, the blurred reference, the lane's sum and the pixel count; every other byte and every register, DIRTY and RBCNT
included, is as before. -/
def Obligations.ApplyFlatFieldCombines : Prop :=
  ∀ s : State, s.strat = .flatField → s.LocalReady → s.BuffersApart → s.mem.wf = true →
    ∃ m : Memory,
      exec .apply s = .next { s with mem := m, responses := s.responses ++ [{ status := 0#8, data := 0#32 }] } ∧
      (∀ x y c, x < s.dst.width → y < s.dst.height → c ≤ 2 → s.scope.getLsbD c = true →
        let source := s.mem.read (s.src.base + y * s.src.stride + 4 * x + c)
        let reference := blur s.dst.width s.dst.height (lowHalf s.win).toNat (highHalf s.win).toNat s.workingCopy x y c
        let sum := ∑ v ∈ Finset.range s.dst.height, ∑ u ∈ Finset.range s.dst.width,
          (s.mem.read (s.src.base + v * s.src.stride + 4 * u + c)).toNat
        let out := m.read (s.dst.base + y * s.dst.stride + 4 * x + c)
        (reference = 0#8 → out = source) ∧
        (reference ≠ 0#8 → out.toNat =
          min 255 ((source.toNat * sum) / (reference.toNat * (s.dst.width * s.dst.height))))) ∧
      (∀ a, ¬ s.InScope a → m.read a = s.mem.read a)

/-- R200, R208 and R212: under CONTRAST, with the buffers apart, the table is refreshed and each in-scope destination byte is
the table's entry at `clamp8(2*s - r)`; in a state that meets the invariant that table is `ConLut(CA, CB)`; every other byte,
and every register but DIRTY and RBCNT, is as before. -/
def Obligations.ApplyContrastCombines : Prop :=
  ∀ s : State, s.strat = .contrast → s.LocalReady → s.BuffersApart → s.mem.wf = true →
    ∃ m : Memory,
      exec .apply s = .next { s.ensureFresh with mem := m, responses := s.responses ++ [{ status := 0#8, data := 0#32 }] } ∧
      (∀ x y c, x < s.dst.width → y < s.dst.height → c ≤ 2 → s.scope.getLsbD c = true →
        let source := s.mem.read (s.src.base + y * s.src.stride + 4 * x + c)
        let reference := blur s.dst.width s.dst.height (lowHalf s.win).toNat (highHalf s.win).toNat s.workingCopy x y c
        m.read (s.dst.base + y * s.dst.stride + 4 * x + c) =
          s.ensureFresh.lutByte (clamp8 (2 * (source.toNat : Int) - (reference.toNat : Int)))) ∧
      (s.Inv → s.ensureFresh.lut = some (conLut s.ca s.cb)) ∧
      (∀ a, ¬ s.InScope a → m.read a = s.mem.read a)

/-- R71, R282, 93 U1: a local `APPLY` whose buffers overlap in part is not detected: it completes with status OK and leaves
everything outside the in-scope destination bytes as it was (CONTRAST refreshes the table). That the in-scope bytes are free
values and the command is not refused is the model's choice (log 9). -/
def Obligations.PartialOverlapStaysInScope : Prop :=
  ∀ s : State, s.strat ≠ .log → s.LocalReady → ¬ s.BuffersApart → s.mem.wf = true →
    ∃ m : Memory,
      exec .apply s = .next { (if s.strat = .contrast then s.ensureFresh else s) with
        mem := m, freeIx := s.freeIx + 1, responses := s.responses ++ [{ status := 0#8, data := 0#32 }] } ∧
      (∀ a, ¬ s.InScope a → m.read a = s.mem.read a)

/-- R66: across every command, a byte of memory changes only if the command is an `APPLY` and the byte is an in-scope lane
(0 to 2) of the destination footprint; padding, alpha and everything else keep their values. -/
def Obligations.CommandsWriteOnlyTheScope : Prop :=
  ∀ (s t : State) (w : CommandWord) (rest : List HostMove) (a : Nat), s.inbox = .command w :: rest → s.mem.wf = true →
    step s = .next t → t.mem.read a ≠ s.mem.read a →
      decode w = some .apply ∧ ∃ x y c, x < s.dst.width ∧ y < s.dst.height ∧ c ≤ 2 ∧ s.scope.getLsbD c = true ∧
        a = s.dst.base + y * s.dst.stride + 4 * x + c

/-- R66: an `APPLY` reads only the footprints: changing memory outside both of them changes neither the response nor any
byte the command writes. For buffers that overlap in part the rule leaves the in-scope bytes UNPREDICTABLE (R71): that they agree
in the two states there rests on the model's choice of a free byte that depends on the draw and the address alone (logs 9 and
10), not on a rule. -/
def Obligations.ApplyReadsOnlyTheFootprints : Prop :=
  ∀ (s t : State) (m : Memory), s.mem.wf = true → m.wf = true →
    (∀ a, s.dst.covers a ∨ s.src.covers a → m.read a = s.mem.read a) → exec .apply s = .next t →
      ∃ m' : Memory, exec .apply { s with mem := m } = .next { t with mem := m' } ∧
        (∀ a, s.InScope a → m'.read a = t.mem.read a) ∧ (∀ a, ¬ s.InScope a → m'.read a = m.read a)

/-- R186 and R189: the loop of the global pass, in any order. Visiting each in-scope channel byte once, reading it, mapping it
through the table and writing it back before the next, leaves the memory that `APPLY` under LOG leaves; distinct channel bytes
have distinct addresses. -/
def Obligations.GlobalPassIsScheduleFree : Prop :=
  ∀ (s : State) (order : List Site), s.mem.wf = true → s.strat = .log → s.dst.Usable s.params.memBytes → order.Nodup →
    (∀ p : Site, p ∈ order ↔ p.x < s.dst.width ∧ p.y < s.dst.height ∧ p.c ≤ 2 ∧ s.scope.getLsbD p.c = true) →
      (order.map fun p => s.dst.base + p.y * s.dst.stride + 4 * p.x + p.c).Nodup ∧
      ∃ t : State, exec .apply s = .next t ∧
        order.foldl (fun m p => m.write (s.dst.base + p.y * s.dst.stride + 4 * p.x + p.c)
          (t.lutByte (m.read (s.dst.base + p.y * s.dst.stride + 4 * p.x + p.c)))) s.mem = t.mem

/-- R211 and R219: nor does the local pass depend on its order, also when the source byte is read late, from the memory as it
stands just before the write (the blurred reference and the sums are complete before: R204). -/
def Obligations.LocalPassIsScheduleFree : Prop :=
  ∀ (s : State) (order : List Site), s.mem.wf = true → s.strat ≠ .log → s.LocalReady → s.BuffersApart → order.Nodup →
    (∀ p : Site, p ∈ order ↔ p.x < s.dst.width ∧ p.y < s.dst.height ∧ p.c ≤ 2 ∧ s.scope.getLsbD p.c = true) →
      ∃ t : State, exec .apply s = .next t ∧
        order.foldl (fun m p => m.write (s.dst.base + p.y * s.dst.stride + 4 * p.x + p.c)
          (t.combine (m.read (s.src.base + p.y * s.src.stride + 4 * p.x + p.c))
            (blur s.dst.width s.dst.height (lowHalf s.win).toNat (highHalf s.win).toNat s.workingCopy p.x p.y p.c)
            (laneSum s.dst.width s.dst.height s.workingCopy p.c) (s.dst.width * s.dst.height))) s.mem = t.mem

/-- R207 (F3), the source's scenario 1: a lane of the source that has one value `v` at every pixel comes out of the flat-field
pass as `v` at every pixel, whatever the window. -/
def Obligations.FlatFieldKeepsAUniformLane : Prop :=
  ∀ (s : State) (c : Nat) (v : Byte), s.strat = .flatField → s.LocalReady → s.BuffersApart → s.mem.wf = true →
    c ≤ 2 → s.scope.getLsbD c = true →
    (∀ x y, x < s.dst.width → y < s.dst.height → s.mem.read (s.src.base + y * s.src.stride + 4 * x + c) = v) →
      ∃ t : State, exec .apply s = .next t ∧ ∀ x y, x < s.dst.width → y < s.dst.height →
        t.mem.read (s.dst.base + y * s.dst.stride + 4 * x + c) = v

/-- R207 (F1, F4 to F7): the guard, a zero source byte, a black lane, saturation, and monotonicity of `FFCombine`. -/
def Obligations.FlatFieldCombineLaws : Prop :=
  ∀ (s s' r : Byte) (sum n : Nat), 1 ≤ n → sum ≤ 255 * n →
    (r = 0#8 → ffCombine s r sum n = s) ∧
    ffCombine 0#8 r sum n = 0#8 ∧
    (r ≠ 0#8 → ffCombine s r 0 n = 0#8) ∧
    (r ≠ 0#8 → 256 * r.toNat * n ≤ s.toNat * sum → ffCombine s r sum n = 255#8) ∧
    (r ≠ 0#8 → s.toNat ≤ s'.toNat → (ffCombine s r sum n).toNat ≤ (ffCombine s' r sum n).toNat)

/-- R209 (S1, S3, S4): for a legal contrast the KSI output is non-decreasing in the source byte; with `a = b = 0` it is
`clamp8(2s - r)`; the extremes. -/
def Obligations.KsiCombineLaws : Prop :=
  ∀ (a bo : Word) (s s' r : Byte), -65536 ≤ a.toInt →
    (s.toNat ≤ s'.toNat →
      ((conLut a bo).entry (ksiIndex s r)).toNat ≤ ((conLut a bo).entry (ksiIndex s' r)).toNat) ∧
    (conLut 0#32 0#32).entry (ksiIndex s r) = clamp8 (2 * (s.toNat : Int) - (r.toNat : Int)) ∧
    ksiIndex 0#8 r = 0#8 ∧ ksiIndex 255#8 0#8 = 255#8 ∧ (s.toNat ≤ 127 → ksiIndex s 255#8 = 0#8) ∧ ksiIndex s s = s

/-- R209 (S2) with R203 (P4): with a 1×1 window the KSI pass is the plain table map of the source. -/
def Obligations.UnitWindowContrastIsTheTableMap : Prop :=
  ∀ s : State, s.strat = .contrast → s.LocalReady → s.BuffersApart → s.mem.wf = true → s.win = 0x00010001#32 →
    ∃ t : State, exec .apply s = .next t ∧
      ∀ x y c, x < s.dst.width → y < s.dst.height → c ≤ 2 → s.scope.getLsbD c = true →
        t.mem.read (s.dst.base + y * s.dst.stride + 4 * x + c) =
          t.lutByte (s.mem.read (s.src.base + y * s.src.stride + 4 * x + c))

/-- R191: under LOG with an identity table `APPLY` leaves every byte of memory unchanged; `BASE = 0x00010001`, `DELTA = 0` is
such a configuration; in general a second `APPLY` maps through the table again. -/
def Obligations.IdentityTableLeavesMemory : Prop :=
  (∀ s : State, s.strat = .log → s.dst.Usable s.params.memBytes → s.mem.wf = true →
    (∀ v : Byte, s.ensureFresh.lutByte v = v) → ∃ t : State, exec .apply s = .next t ∧ t.mem = s.mem) ∧
  (∀ s : State, s.strat = .log → s.base = 0x00010001#32 → s.delta = 0#32 → s.status.dirty = true →
    ∀ v : Byte, s.ensureFresh.lutByte v = v) ∧
  (∀ s : State, s.strat = .log → s.dst.Usable s.params.memBytes → s.mem.wf = true →
    ∃ t u : State, exec .apply s = .next t ∧ exec .apply t = .next u ∧
      ∀ a, s.InScope a → u.mem.read a = t.lutByte (t.lutByte (s.mem.read a)))

/-- R203: the blur of the model meets P3 and P4 and takes nothing but its five arguments (P1, P2 by its type): on images that
agree within the frame the answers agree there. What it answers elsewhere is a free value (log 8). -/
def Obligations.BlurMeetsItsContract : Prop :=
  ∀ (w h ww wh : Nat) (img : Img), 1 ≤ w → 1 ≤ h → 1 ≤ ww → 1 ≤ wh →
    (∀ c v, c ≤ 3 → (∀ x y, x < w → y < h → img x y c = v) → ∀ x y, x < w → y < h → blur w h ww wh img x y c = v) ∧
    (∀ x y c, x < w → y < h → c ≤ 3 → blur w h 1 1 img x y c = img x y c) ∧
    (∀ img' : Img, (∀ x y c, x < w → y < h → c ≤ 3 → img' x y c = img x y c) →
      ∀ x y c, x < w → y < h → c ≤ 3 → blur w h ww wh img' x y c = blur w h ww wh img x y c)

/-- R181: under LOG the source descriptor is not read. -/
def Obligations.LogIgnoresTheSource : Prop :=
  ∀ (s : State) (b d st : Word), s.strat = .log →
    ∃ t : State, exec .apply s = .next t ∧
      exec .apply { s with srcBase := b, srcDim := d, srcStride := st } =
        .next { t with srcBase := b, srcDim := d, srcStride := st }

/-- R207 (F2): the flat-field pass reads neither the table nor DIRTY, and changes neither. -/
def Obligations.FlatFieldIgnoresTheTable : Prop :=
  ∀ (s : State) (l : Option Lut) (dirty : Bool), s.strat = .flatField →
    ∃ t : State, exec .apply s = .next t ∧ t.lut = s.lut ∧ t.status.dirty = s.status.dirty ∧ t.rbcnt = s.rbcnt ∧
      exec .apply { s with lut := l, status := { s.status with dirty := dirty } } =
        .next { t with lut := l, status := { t.status with dirty := dirty } }

/-- R101: `SETINPLACE` sets both descriptors to the same buffer; the other pseudo-instructions expand to their commands. -/
def Obligations.PseudoInstructionsExpand : Prop :=
  (∀ (b : Word) (w h : Half) (st : Word) (s : State), ∃ t : State,
    execAll (Pseudo.setinplace b w h st).expand s = .next t ∧ t.dst = t.src ∧
      t.dst = { base := b.toNat, width := w.toNat, height := h.toNat, stride := st.toNat } ∧ t.mem = s.mem ∧
      t.responses = s.responses ++ List.replicate 6 { status := 0#8, data := 0#32 }) ∧
  (∀ (b : Word) (w h : Half) (st : Word), (Pseudo.setinplace b w h st).expand =
    (Pseudo.setdst b w h st).expand ++ (Pseudo.setsrc b w h st).expand ∧
    (Pseudo.setdst b w h st).expand = [.setdstbase b, .setdstdim w h, .setdststride st] ∧
    (Pseudo.setsrc b w h st).expand = [.setsrcbase b, .setsrcdim w h, .setsrcstride st]) ∧
  (∀ n : Half, (Pseudo.setwinsq n).expand = [.setwin n n]) ∧ Pseudo.ensurefresh.expand = [.fresh] ∧
  (∀ i : Byte, (Pseudo.getvalue i).expand = [.lutrd i])

/-- R209 (S2) with R203 (P3): a lane of the source that has one value `v` at every pixel comes out of the KSI pass as the
table's entry at `v` at every pixel, whatever the window: the plain table map of the lane. -/
def Obligations.UniformLaneContrastIsTheTableMap : Prop :=
  ∀ (s : State) (c : Nat) (v : Byte), s.strat = .contrast → s.LocalReady → s.BuffersApart → s.mem.wf = true →
    c ≤ 2 → s.scope.getLsbD c = true →
    (∀ x y, x < s.dst.width → y < s.dst.height → s.mem.read (s.src.base + y * s.src.stride + 4 * x + c) = v) →
      ∃ t : State, exec .apply s = .next t ∧ ∀ x y, x < s.dst.width → y < s.dst.height →
        t.mem.read (s.dst.base + y * s.dst.stride + 4 * x + c) = t.lutByte v
end

