-- ==== Sys2Proof/Laws/Memory.lean ====
section
/-! SUPPORT. The laws of the pixel memory: the canonical form is kept, a read after a write, a write elsewhere, and the
canonical form makes memories with equal reads equal. -/

namespace Sys2Proof.Machine

theorem Memory.wfAbove_mono {b c : Nat} {m : Memory} (hcb : c ≤ b) (h : Memory.wfAbove b m = true) :
    Memory.wfAbove c m = true := by
  cases m with
  | nil => rfl
  | cons p rest =>
    obtain ⟨k, v⟩ := p
    simp only [Memory.wfAbove, Bool.and_eq_true, decide_eq_true_eq] at h ⊢
    exact ⟨⟨by omega, h.1.2⟩, h.2⟩

theorem Memory.read_below {b : Nat} {m : Memory} (h : Memory.wfAbove b m = true) {a : Nat} (ha : a < b) :
    m.read a = Config.unlistedByte := by
  cases m with
  | nil => rfl
  | cons p rest =>
    obtain ⟨k, v⟩ := p
    simp only [Memory.wfAbove, Bool.and_eq_true, decide_eq_true_eq] at h
    simp [Memory.read, show a < k by omega]

theorem Memory.wfAbove_cons {b a : Nat} {v : Byte} {m : Memory} (hb : b ≤ a) (h : Memory.wfAbove (a + 1) m = true) :
    Memory.wfAbove b (Memory.cons a v m) = true := by
  unfold Memory.cons
  split
  · exact Memory.wfAbove_mono (by omega) h
  · simp_all [Memory.wfAbove]

theorem Memory.read_cons {a : Nat} {v : Byte} {m : Memory} (h : Memory.wfAbove (a + 1) m = true) (x : Nat) :
    (Memory.cons a v m).read x = if x = a then v else m.read x := by
  unfold Memory.cons
  by_cases hx : x = a
  · subst hx
    split
    · rw [Memory.read_below h (by omega), if_pos rfl]; simp_all
    · simp [Memory.read]
  · rw [if_neg hx]
    split
    · rfl
    · by_cases hlt : x < a
      · rw [Memory.read_below h (by omega)]; simp [Memory.read, hlt]
      · simp [Memory.read, hlt, hx]

theorem Memory.wfAbove_write {b a : Nat} {v : Byte} {m : Memory} (hb : b ≤ a) (h : Memory.wfAbove b m = true) :
    Memory.wfAbove b (m.write a v) = true := by
  induction m generalizing b with
  | nil => exact Memory.wfAbove_cons hb rfl
  | cons p rest ih =>
    obtain ⟨k, w⟩ := p
    simp only [Memory.wfAbove, Bool.and_eq_true, decide_eq_true_eq] at h
    unfold Memory.write
    split
    · exact Memory.wfAbove_cons hb (by simp only [Memory.wfAbove, Bool.and_eq_true, decide_eq_true_eq]; exact ⟨⟨by omega, h.1.2⟩, h.2⟩)
    · split
      · rename_i hk; subst hk; exact Memory.wfAbove_cons hb h.2
      · simp only [Memory.wfAbove, Bool.and_eq_true, decide_eq_true_eq]
        exact ⟨h.1, ih (by omega) h.2⟩

/-- A byte write keeps the canonical form. -/
theorem Memory.wf_write {m : Memory} (h : m.wf = true) (a : Nat) (v : Byte) : (m.write a v).wf = true :=
  Memory.wfAbove_write (Nat.zero_le a) h

theorem Memory.read_write_above {b : Nat} {m : Memory} (h : Memory.wfAbove b m = true) (a : Nat) (v : Byte) (x : Nat) :
    (m.write a v).read x = if x = a then v else m.read x := by
  induction m generalizing b with
  | nil => exact Memory.read_cons rfl x
  | cons p rest ih =>
    obtain ⟨k, w⟩ := p
    simp only [Memory.wfAbove, Bool.and_eq_true, decide_eq_true_eq] at h
    unfold Memory.write
    split
    · rename_i hlt
      exact Memory.read_cons (by simp only [Memory.wfAbove, Bool.and_eq_true, decide_eq_true_eq]; exact ⟨⟨by omega, h.1.2⟩, h.2⟩) x
    · split
      · rename_i hk; subst hk
        rw [Memory.read_cons h.2]
        by_cases hx : x = a
        · simp [hx]
        · by_cases hlt : x < a
          · rw [Memory.read_below h.2 (by omega)]; simp [Memory.read, hx, hlt]
          · simp [Memory.read, hx, hlt]
      · have := ih h.2
        simp only [Memory.read, this]
        by_cases hx : x = a
        · subst hx; simp_all
        · simp [hx]

/-- A read after a write: the byte written at its address, the old byte everywhere else. -/
theorem Memory.read_write {m : Memory} (h : m.wf = true) (a : Nat) (v : Byte) (x : Nat) :
    (m.write a v).read x = if x = a then v else m.read x :=
  Memory.read_write_above h a v x

theorem Memory.within_iff_head {n : Nat} (p : Host.Cell) (m : Memory) :
    Memory.within (p :: m) n = true ↔ p.1 < n ∧ m.within n = true := by
  simp only [Memory.within, List.all_cons, Bool.and_eq_true, decide_eq_true_eq]

theorem Memory.within_cons {m : Memory} {n a : Nat} (h : m.within n = true) (ha : a < n) (v : Byte) :
    (Memory.cons a v m).within n = true := by
  unfold Memory.cons
  split
  · exact h
  · exact (Memory.within_iff_head _ _).2 ⟨ha, h⟩

/-- A byte write at an existing address lists only existing addresses. -/
theorem Memory.within_write {m : Memory} {n : Nat} (h : m.within n = true) {a : Nat} (ha : a < n) (v : Byte) :
    (m.write a v).within n = true := by
  induction m with
  | nil => exact Memory.within_cons h ha v
  | cons p rest ih =>
    have h' := (Memory.within_iff_head _ _).1 h
    unfold Memory.write
    split
    · exact Memory.within_cons h ha v
    · split
      · exact Memory.within_cons h'.2 ha v
      · exact (Memory.within_iff_head _ _).2 ⟨h'.1, ih h'.2⟩

/-- Several writes keep the canonical form. -/
theorem Memory.wf_writeAll {m : Memory} (h : m.wf = true) (ws : List (Nat × Byte)) : (m.writeAll ws).wf = true := by
  induction ws generalizing m with
  | nil => exact h
  | cons w ws ih => exact ih (Memory.wf_write h w.1 w.2)

/-- Several writes at existing addresses. -/
theorem Memory.within_writeAll {m : Memory} {n : Nat} (h : m.within n = true) {ws : List (Nat × Byte)}
    (hw : ∀ w ∈ ws, w.1 < n) : (m.writeAll ws).within n = true := by
  induction ws generalizing m with
  | nil => exact h
  | cons w ws ih =>
    exact ih (Memory.within_write h (hw w (by simp)) w.2) fun x hx => hw x (by simp [hx])

/-- A byte that no write names reads as before. -/
theorem Memory.read_writeAll_other {m : Memory} (h : m.wf = true) {ws : List (Nat × Byte)} {a : Nat}
    (ha : ∀ w ∈ ws, w.1 ≠ a) : (m.writeAll ws).read a = m.read a := by
  induction ws generalizing m with
  | nil => rfl
  | cons w ws ih =>
    have h1 := ih (Memory.wf_write h w.1 w.2) fun x hx => ha x (by simp [hx])
    have h2 : a ≠ w.1 := fun e => ha w (by simp) e.symm
    simpa [Memory.writeAll, Memory.read_write h, h2] using h1

/-- A byte that one write names, the addresses being distinct, reads as written. -/
theorem Memory.read_writeAll_mem {m : Memory} (h : m.wf = true) {ws : List (Nat × Byte)}
    (hn : (ws.map Prod.fst).Nodup) {w : Nat × Byte} (hw : w ∈ ws) : (m.writeAll ws).read w.1 = w.2 := by
  induction ws generalizing m with
  | nil => cases hw
  | cons x ws ih =>
    rw [List.map_cons, List.nodup_cons] at hn
    rcases List.mem_cons.1 hw with rfl | hw
    · have : (Memory.writeAll (m.write w.1 w.2) ws).read w.1 = (m.write w.1 w.2).read w.1 :=
        Memory.read_writeAll_other (Memory.wf_write h w.1 w.2) fun y hy e => hn.1 (e ▸ List.mem_map_of_mem hy)
      simpa [Memory.writeAll, Memory.read_write h] using this
    · exact ih (Memory.wf_write h x.1 x.2) hn.2 hw

theorem Memory.ext_above {b : Nat} {m m' : Memory} (h : Memory.wfAbove b m = true) (h' : Memory.wfAbove b m' = true)
    (e : ∀ a, m.read a = m'.read a) : m = m' := by
  induction m generalizing b m' with
  | nil =>
    cases m' with
    | nil => rfl
    | cons p rest =>
      obtain ⟨k, v⟩ := p
      have := e k
      simp_all [Memory.wfAbove, Memory.read]
  | cons p rest ih =>
    obtain ⟨k, v⟩ := p
    cases m' with
    | nil =>
      have := e k
      simp_all [Memory.wfAbove, Memory.read]
    | cons q rest' =>
      obtain ⟨k', v'⟩ := q
      simp only [Memory.wfAbove, Bool.and_eq_true, decide_eq_true_eq] at h h'
      have hk := e k
      have hk' := e k'
      simp only [Memory.read, Nat.lt_irrefl, if_false, if_true] at hk hk'
      have hkk : k = k' := by
        by_contra hne
        rcases Nat.lt_or_gt_of_ne hne with hlt | hlt
        · exact h.1.2 (by simpa [hlt] using hk)
        · exact h'.1.2 (by simpa [show k' < k from hlt] using hk'.symm)
      subst hkk
      have hv : v = v' := by simpa using hk
      subst hv
      have : rest = rest' := by
        refine ih h.2 h'.2 fun a => ?_
        by_cases ha : a < k + 1
        · rw [Memory.read_below h.2 ha, Memory.read_below h'.2 ha]
        · have := e a
          simpa [Memory.read, show ¬ a < k by omega, show a ≠ k by omega] using this
      rw [this]

/-- In canonical form, memories that read alike are equal. -/
theorem Memory.ext {m m' : Memory} (h : m.wf = true) (h' : m'.wf = true) (e : ∀ a, m.read a = m'.read a) : m = m' :=
  Memory.ext_above h h' e

end Sys2Proof.Machine
end

