-- ==== Sys2Proof/Laws/Buffers.lean ====
section
/-! SUPPORT. Buffer addressing: which channel bytes a pass visits, that they have addresses of their own (R189), where the
addresses lie (R183), and that the row test finds exactly the footprints that share a byte (R71). -/

namespace Sys2Proof.Machine

/-- The channel bytes a pass visits. -/
@[simp] theorem mem_sites {lanes : List Nat} {w h : Nat} {p : Site} :
    p ∈ sites lanes w h ↔ p.c ∈ lanes ∧ p.y < h ∧ p.x < w := by
  obtain ⟨x, y, c⟩ := p
  simp only [sites, List.mem_flatMap, List.mem_map, List.mem_range, Site.mk.injEq]
  constructor
  · rintro ⟨c', hc, y', hy, x', hx, rfl, rfl, rfl⟩; exact ⟨hc, hy, hx⟩
  · rintro ⟨hc, hy, hx⟩; exact ⟨c, hc, y, hy, x, hx, rfl, rfl, rfl⟩

/-- A lane is in scope when it is a colour lane whose bit is set. -/
@[simp] theorem mem_scopeLanes {m : BitVec 3} {c : Nat} : c ∈ scopeLanes m ↔ m.getLsbD c = true := by
  simp only [scopeLanes, List.mem_filter, List.mem_cons, List.not_mem_nil, or_false]
  constructor
  · exact fun h => h.2
  · intro h
    have : c < 3 := BitVec.lt_of_getLsbD h
    exact ⟨by omega, h⟩

theorem scopeLanes_lt {m : BitVec 3} {c : Nat} (h : c ∈ scopeLanes m) : c ≤ 2 := by
  have : c < 3 := BitVec.lt_of_getLsbD (mem_scopeLanes.1 h)
  omega

theorem scopeLanes_nodup (m : BitVec 3) : (scopeLanes m).Nodup := List.Nodup.filter _ (by decide)

/-- Each channel byte is visited once. -/
theorem sites_nodup {lanes : List Nat} (hl : lanes.Nodup) (w h : Nat) : (sites lanes w h).Nodup := by
  refine List.nodup_flatMap.2 ⟨fun c _ => List.nodup_flatMap.2 ⟨fun y _ => ?_, ?_⟩, ?_⟩
  · exact List.Nodup.map (fun a b e => by simpa using e) List.nodup_range
  · refine List.nodup_range.imp fun hne => ?_
    simp only [Function.onFun, List.disjoint_left, List.mem_map]
    rintro p ⟨_, _, rfl⟩ ⟨_, _, e⟩
    simp only [Site.mk.injEq] at e; exact hne e.2.1.symm
  · refine hl.imp fun hne => ?_
    simp only [Function.onFun, List.disjoint_left, List.mem_flatMap, List.mem_map]
    rintro p ⟨_, _, _, _, rfl⟩ ⟨_, _, _, _, e⟩
    simp only [Site.mk.injEq] at e; exact hne e.2.2.symm

/-- What validation establishes (R183). -/
theorem Descriptor.valid_iff {d : Descriptor} {n : Nat} : d.valid n = true ↔
    1 ≤ d.width ∧ 1 ≤ d.height ∧ 4 * d.width ≤ d.stride ∧ d.base + (d.height - 1) * d.stride + 4 * d.width ≤ n := by
  simp only [Descriptor.valid, Bool.and_eq_true, decide_eq_true_eq, and_assoc]

/-- Distinct channel bytes have distinct addresses, because `STRIDE ≥ 4*W` (R189). -/
theorem Descriptor.addr_inj {d : Descriptor} (hs : 4 * d.width ≤ d.stride) {p q : Site} (hp : p.x < d.width)
    (hq : q.x < d.width) (hpc : p.c ≤ 3) (hqc : q.c ≤ 3) (e : d.addr p = d.addr q) : p = q := by
  obtain ⟨x, y, c⟩ := p
  obtain ⟨x', y', c'⟩ := q
  simp only [Descriptor.addr] at *
  have hy : y = y' := by
    by_contra hne
    rcases Nat.lt_or_gt_of_ne hne with h | h
    · have : (y + 1) * d.stride ≤ y' * d.stride := Nat.mul_le_mul_right _ h
      rw [Nat.succ_mul] at this; omega
    · have : (y' + 1) * d.stride ≤ y * d.stride := Nat.mul_le_mul_right _ h
      rw [Nat.succ_mul] at this; omega
  subst hy
  have : x = x' := by omega
  subst this
  have : c = c' := by omega
  rw [this]

/-- Every byte of the footprint of a valid descriptor exists (R62, R183). -/
theorem Descriptor.addr_lt {d : Descriptor} {n : Nat} (hv : d.valid n = true) {p : Site} (hx : p.x < d.width)
    (hy : p.y < d.height) (hc : p.c ≤ 3) : d.addr p < n := by
  obtain ⟨_, _, _, hb⟩ := Descriptor.valid_iff.1 hv
  have : p.y * d.stride ≤ (d.height - 1) * d.stride := Nat.mul_le_mul_right _ (by omega)
  simp only [Descriptor.addr]; omega

/-- The in-scope channel bytes of the destination. -/
@[simp] theorem State.mem_scopeSites {s : State} {p : Site} :
    p ∈ s.scopeSites ↔ s.scope.getLsbD p.c = true ∧ p.y < s.dst.height ∧ p.x < s.dst.width := by
  simp [State.scopeSites]

theorem State.scopeSites_lane {s : State} {p : Site} (h : p ∈ s.scopeSites) : p.c ≤ 2 := by
  have : p.c < 3 := BitVec.lt_of_getLsbD (State.mem_scopeSites.1 h).1
  omega

/-- The in-scope destination addresses are distinct. -/
theorem State.scopeSites_addr_nodup {s : State} (hs : 4 * s.dst.width ≤ s.dst.stride) :
    (s.scopeSites.map s.dst.addr).Nodup := by
  refine List.Nodup.map_on (fun p hp q hq e => ?_) (sites_nodup (scopeLanes_nodup _) _ _)
  have hpc := State.scopeSites_lane hp
  have hqc := State.scopeSites_lane hq
  exact Descriptor.addr_inj hs (State.mem_scopeSites.1 hp).2.2 (State.mem_scopeSites.1 hq).2.2 (by omega) (by omega) e

/-- The four bytes of a pixel are its own: an address of a row determines the pixel and the lane. -/
theorem Descriptor.covers_iff {d : Descriptor} {a : Nat} : d.covers a ↔
    ∃ y, y < d.height ∧ d.base + y * d.stride ≤ a ∧ a < d.base + y * d.stride + 4 * d.width := by
  constructor
  · rintro ⟨⟨x, y, c⟩, hx, hy, hc, rfl⟩
    simp only [Descriptor.addr] at *
    exact ⟨y, hy, by omega, by omega⟩
  · rintro ⟨y, hy, h1, h2⟩
    refine ⟨⟨(a - (d.base + y * d.stride)) / 4, y, (a - (d.base + y * d.stride)) % 4⟩, ?_, hy, ?_, ?_⟩ <;>
      simp only [Descriptor.addr] <;> omega

/-- The row test says exactly that the two footprints share a byte (R71). -/
theorem Descriptor.meets_iff {d e : Descriptor} : d.meets e = true ↔ ∃ a, d.covers a ∧ e.covers a := by
  simp only [Descriptor.meets, List.any_eq_true, List.mem_range, decide_eq_true_eq, Descriptor.covers_iff]
  constructor
  · rintro ⟨y, hy, z, hz, h⟩
    exact ⟨max (d.base + y * d.stride) (e.base + z * e.stride),
      ⟨y, hy, by omega, by omega⟩, ⟨z, hz, by omega, by omega⟩⟩
  · rintro ⟨a, ⟨y, hy, h1, h2⟩, ⟨z, hz, h3, h4⟩⟩
    exact ⟨y, hy, z, hz, by omega⟩

/-! ## The stores of the passes -/

/-- The stores of the local pass, one for each in-scope channel byte (R210). -/
theorem State.localStores_eq (s : State) : s.localStores = s.scopeSites.map fun p =>
    (s.dst.addr p, s.combine (s.workingCopy p.x p.y p.c)
      (blur s.dst.width s.dst.height (lowHalf s.win).toNat (highHalf s.win).toNat s.workingCopy p.x p.y p.c)
      (if s.strat = .flatField then laneSum s.dst.width s.dst.height s.workingCopy p.c else 0)
      (s.dst.width * s.dst.height)) := by
  simp only [State.localStores, State.scopeSites, sites, List.map_flatMap, List.map_map]
  rfl

/-- Storing one byte for each in-scope channel byte: each reads as stored, every other address as before. -/
theorem State.read_scopeStores {s : State} (hm : s.mem.wf = true) (hs : 4 * s.dst.width ≤ s.dst.stride)
    (f : Site → Byte) :
    (∀ p ∈ s.scopeSites, (s.mem.writeAll (s.scopeSites.map fun p => (s.dst.addr p, f p))).read (s.dst.addr p) = f p) ∧
    (∀ a, (∀ p ∈ s.scopeSites, s.dst.addr p ≠ a) →
      (s.mem.writeAll (s.scopeSites.map fun p => (s.dst.addr p, f p))).read a = s.mem.read a) := by
  constructor
  · intro p hp
    have hn : ((s.scopeSites.map fun p => (s.dst.addr p, f p)).map Prod.fst).Nodup := by
      rw [List.map_map]; exact State.scopeSites_addr_nodup hs
    exact Memory.read_writeAll_mem hm hn (List.mem_map_of_mem hp)
  · intro a ha
    refine Memory.read_writeAll_other hm fun w hw => ?_
    obtain ⟨p, hp, rfl⟩ := List.mem_map.1 hw
    exact ha p hp

end Sys2Proof.Machine
end

