-- ==== Sys2Proof/Laws/Encoding.lean ====
section
/-! SUPPORT. The fields of a word: reading a field of an encoded word gives what was put there, and a word with a zero
reserved field is made of its fields. -/

namespace Sys2Proof

@[simp] theorem opField_encodeFields (op : Byte) (imm : Word) : opField (encodeFields op imm) = op := by
  apply BitVec.eq_of_getLsbD_eq; intro i hi
  simp only [opField, encodeFields, BitVec.getLsbD_extractLsb', BitVec.getLsbD_append]
  simp [hi]

@[simp] theorem rsvField_encodeFields (op : Byte) (imm : Word) : rsvField (encodeFields op imm) = 0#24 := by
  apply BitVec.eq_of_getLsbD_eq; intro i hi
  simp only [rsvField, encodeFields, BitVec.getLsbD_extractLsb', BitVec.getLsbD_append]
  simp [hi]; omega

@[simp] theorem immField_encodeFields (op : Byte) (imm : Word) : immField (encodeFields op imm) = imm := by
  apply BitVec.eq_of_getLsbD_eq; intro i hi
  simp only [immField, encodeFields, BitVec.getLsbD_extractLsb', BitVec.getLsbD_append]
  simp [hi]; intro h; omega

/-- A word with `rsv = 0` is made of its other two fields. -/
theorem encodeFields_fields {w : CommandWord} (h : rsvField w = 0#24) :
    encodeFields (opField w) (immField w) = w := by
  apply BitVec.eq_of_getLsbD_eq; intro i hi
  have hr : ∀ j, j < 24 → w.getLsbD (32 + j) = false := by
    intro j hj
    have := congrArg (·.getLsbD j) h
    simpa [rsvField, hj] using this
  simp only [encodeFields, opField, immField, BitVec.getLsbD_extractLsb', BitVec.getLsbD_append]
  by_cases h1 : i < 32
  · simp [h1]; omega
  · by_cases h2 : i < 56
    · have := hr (i - 32) (by omega)
      rw [show 32 + (i - 32) = i by omega] at this
      simp [h1, this]; omega
    · have e : 56 + (i - 56) = i := by omega
      have h4 : i - 56 < 8 := by omega
      simp [h2, h4, e]

@[simp] theorem lowHalf_pairWord (lo hi : Half) : lowHalf (pairWord lo hi) = lo := by
  apply BitVec.eq_of_getLsbD_eq; intro i h
  simp only [lowHalf, pairWord, BitVec.getLsbD_extractLsb', BitVec.getLsbD_append]
  simp [h]

@[simp] theorem highHalf_pairWord (lo hi : Half) : highHalf (pairWord lo hi) = hi := by
  apply BitVec.eq_of_getLsbD_eq; intro i h
  simp only [highHalf, pairWord, BitVec.getLsbD_extractLsb', BitVec.getLsbD_append]
  simp [h]

/-- A word is the pair of its halves. -/
@[simp] theorem pairWord_halves (v : Word) : pairWord (lowHalf v) (highHalf v) = v := by
  apply BitVec.eq_of_getLsbD_eq; intro i h
  simp only [lowHalf, highHalf, pairWord, BitVec.getLsbD_extractLsb', BitVec.getLsbD_append]
  by_cases h1 : i < 16
  · simp [h1]
  · have e : 16 + (i - 16) = i := by omega
    simp only [h1, if_false, e]
    simp; omega

@[simp] theorem lowByte_indexWord (idx : Byte) : lowByte (indexWord idx) = idx := by
  apply BitVec.eq_of_getLsbD_eq; intro i h
  simp only [lowByte, indexWord, BitVec.getLsbD_extractLsb', BitVec.getLsbD_append]
  simp [h]

@[simp] theorem highBits_indexWord (idx : Byte) : highBits (indexWord idx) = 0#24 := by
  apply BitVec.eq_of_getLsbD_eq; intro i h
  simp only [highBits, indexWord, BitVec.getLsbD_extractLsb', BitVec.getLsbD_append]
  simp [h]

/-- A word whose high bits are zero is the index word of its low byte. -/
theorem indexWord_lowByte {v : Word} (h : highBits v = 0#24) : indexWord (lowByte v) = v := by
  apply BitVec.eq_of_getLsbD_eq; intro i hi
  have hr : ∀ j, j < 24 → v.getLsbD (8 + j) = false := by
    intro j hj
    have := congrArg (·.getLsbD j) h
    simpa [highBits, hj] using this
  simp only [lowByte, indexWord, BitVec.getLsbD_extractLsb', BitVec.getLsbD_append]
  by_cases h1 : i < 8
  · simp [h1]
  · have := hr (i - 8) (by omega)
    rw [show 8 + (i - 8) = i by omega] at this
    simp [h1, this]

/-- Dimensions are equal as words exactly when widths and heights are. -/
theorem halves_inj {v w : Word} : v = w ↔ (lowHalf v).toNat = (lowHalf w).toNat ∧ (highHalf v).toNat = (highHalf w).toNat := by
  constructor
  · rintro rfl; exact ⟨rfl, rfl⟩
  · rintro ⟨h1, h2⟩
    rw [← pairWord_halves v, ← pairWord_halves w, BitVec.eq_of_toNat_eq h1, BitVec.eq_of_toNat_eq h2]

/-- Decoding a word made of fields. -/
theorem decode_encodeFields (op : Byte) (imm : Word) : decode (encodeFields op imm) = decodeOp op imm := by
  simp [decode]

/-- A decoded word has a zero reserved field, and its opcode and operand field decode. -/
theorem decode_eq_some {w : CommandWord} {i : Instr} (h : decode w = some i) :
    rsvField w = 0#24 ∧ decodeOp (opField w) (immField w) = some i := by
  unfold decode at h
  split at h
  · exact ⟨‹_›, h⟩
  · cases h

end Sys2Proof
end

