-- ==== Sys2Proof/Laws/State.lean ====
section
/-! SUPPORT. One lemma per field per shared update of State (and of the status register), each true by unfolding once, so
that no later proof unfolds a record update. -/

namespace Sys2Proof.Machine

/-! ## The response -/

@[simp] theorem State.respond_params (s : State) (st : Byte) (d : Word) : (s.respond st d).params = s.params := rfl
@[simp] theorem State.respond_status (s : State) (st : Byte) (d : Word) : (s.respond st d).status = s.status := rfl
@[simp] theorem State.respond_rbcnt (s : State) (st : Byte) (d : Word) : (s.respond st d).rbcnt = s.rbcnt := rfl
@[simp] theorem State.respond_strat (s : State) (st : Byte) (d : Word) : (s.respond st d).strat = s.strat := rfl
@[simp] theorem State.respond_scope (s : State) (st : Byte) (d : Word) : (s.respond st d).scope = s.scope := rfl
@[simp] theorem State.respond_base (s : State) (st : Byte) (d : Word) : (s.respond st d).base = s.base := rfl
@[simp] theorem State.respond_delta (s : State) (st : Byte) (d : Word) : (s.respond st d).delta = s.delta := rfl
@[simp] theorem State.respond_ca (s : State) (st : Byte) (d : Word) : (s.respond st d).ca = s.ca := rfl
@[simp] theorem State.respond_cb (s : State) (st : Byte) (d : Word) : (s.respond st d).cb = s.cb := rfl
@[simp] theorem State.respond_win (s : State) (st : Byte) (d : Word) : (s.respond st d).win = s.win := rfl
@[simp] theorem State.respond_dstBase (s : State) (st : Byte) (d : Word) : (s.respond st d).dstBase = s.dstBase := rfl
@[simp] theorem State.respond_dstDim (s : State) (st : Byte) (d : Word) : (s.respond st d).dstDim = s.dstDim := rfl
@[simp] theorem State.respond_dstStride (s : State) (st : Byte) (d : Word) : (s.respond st d).dstStride = s.dstStride := rfl
@[simp] theorem State.respond_srcBase (s : State) (st : Byte) (d : Word) : (s.respond st d).srcBase = s.srcBase := rfl
@[simp] theorem State.respond_srcDim (s : State) (st : Byte) (d : Word) : (s.respond st d).srcDim = s.srcDim := rfl
@[simp] theorem State.respond_srcStride (s : State) (st : Byte) (d : Word) : (s.respond st d).srcStride = s.srcStride := rfl
@[simp] theorem State.respond_lut (s : State) (st : Byte) (d : Word) : (s.respond st d).lut = s.lut := rfl
@[simp] theorem State.respond_mem (s : State) (st : Byte) (d : Word) : (s.respond st d).mem = s.mem := rfl
@[simp] theorem State.respond_inbox (s : State) (st : Byte) (d : Word) : (s.respond st d).inbox = s.inbox := rfl
@[simp] theorem State.respond_responses (s : State) (st : Byte) (d : Word) : (s.respond st d).responses = s.responses ++ [{ status := st, data := d }] := rfl
@[simp] theorem State.respond_freeIx (s : State) (st : Byte) (d : Word) : (s.respond st d).freeIx = s.freeIx := rfl

@[simp] theorem State.done_params (s : State) : (s.done).params = s.params := rfl
@[simp] theorem State.done_status (s : State) : (s.done).status = s.status := rfl
@[simp] theorem State.done_rbcnt (s : State) : (s.done).rbcnt = s.rbcnt := rfl
@[simp] theorem State.done_strat (s : State) : (s.done).strat = s.strat := rfl
@[simp] theorem State.done_scope (s : State) : (s.done).scope = s.scope := rfl
@[simp] theorem State.done_base (s : State) : (s.done).base = s.base := rfl
@[simp] theorem State.done_delta (s : State) : (s.done).delta = s.delta := rfl
@[simp] theorem State.done_ca (s : State) : (s.done).ca = s.ca := rfl
@[simp] theorem State.done_cb (s : State) : (s.done).cb = s.cb := rfl
@[simp] theorem State.done_win (s : State) : (s.done).win = s.win := rfl
@[simp] theorem State.done_dstBase (s : State) : (s.done).dstBase = s.dstBase := rfl
@[simp] theorem State.done_dstDim (s : State) : (s.done).dstDim = s.dstDim := rfl
@[simp] theorem State.done_dstStride (s : State) : (s.done).dstStride = s.dstStride := rfl
@[simp] theorem State.done_srcBase (s : State) : (s.done).srcBase = s.srcBase := rfl
@[simp] theorem State.done_srcDim (s : State) : (s.done).srcDim = s.srcDim := rfl
@[simp] theorem State.done_srcStride (s : State) : (s.done).srcStride = s.srcStride := rfl
@[simp] theorem State.done_lut (s : State) : (s.done).lut = s.lut := rfl
@[simp] theorem State.done_mem (s : State) : (s.done).mem = s.mem := rfl
@[simp] theorem State.done_inbox (s : State) : (s.done).inbox = s.inbox := rfl
@[simp] theorem State.done_responses (s : State) : (s.done).responses = s.responses ++ [{ status := 0#8, data := 0#32 }] := rfl
@[simp] theorem State.done_freeIx (s : State) : (s.done).freeIx = s.freeIx := rfl

/-! ## Taking an error -/

@[simp] theorem State.raise_params (s : State) (e : ErrorCode) : (s.raise e).params = s.params := rfl
@[simp] theorem State.raise_status (s : State) (e : ErrorCode) : (s.raise e).status = s.status.record e := rfl
@[simp] theorem State.raise_rbcnt (s : State) (e : ErrorCode) : (s.raise e).rbcnt = s.rbcnt := rfl
@[simp] theorem State.raise_strat (s : State) (e : ErrorCode) : (s.raise e).strat = s.strat := rfl
@[simp] theorem State.raise_scope (s : State) (e : ErrorCode) : (s.raise e).scope = s.scope := rfl
@[simp] theorem State.raise_base (s : State) (e : ErrorCode) : (s.raise e).base = s.base := rfl
@[simp] theorem State.raise_delta (s : State) (e : ErrorCode) : (s.raise e).delta = s.delta := rfl
@[simp] theorem State.raise_ca (s : State) (e : ErrorCode) : (s.raise e).ca = s.ca := rfl
@[simp] theorem State.raise_cb (s : State) (e : ErrorCode) : (s.raise e).cb = s.cb := rfl
@[simp] theorem State.raise_win (s : State) (e : ErrorCode) : (s.raise e).win = s.win := rfl
@[simp] theorem State.raise_dstBase (s : State) (e : ErrorCode) : (s.raise e).dstBase = s.dstBase := rfl
@[simp] theorem State.raise_dstDim (s : State) (e : ErrorCode) : (s.raise e).dstDim = s.dstDim := rfl
@[simp] theorem State.raise_dstStride (s : State) (e : ErrorCode) : (s.raise e).dstStride = s.dstStride := rfl
@[simp] theorem State.raise_srcBase (s : State) (e : ErrorCode) : (s.raise e).srcBase = s.srcBase := rfl
@[simp] theorem State.raise_srcDim (s : State) (e : ErrorCode) : (s.raise e).srcDim = s.srcDim := rfl
@[simp] theorem State.raise_srcStride (s : State) (e : ErrorCode) : (s.raise e).srcStride = s.srcStride := rfl
@[simp] theorem State.raise_lut (s : State) (e : ErrorCode) : (s.raise e).lut = s.lut := rfl
@[simp] theorem State.raise_mem (s : State) (e : ErrorCode) : (s.raise e).mem = s.mem := rfl
@[simp] theorem State.raise_inbox (s : State) (e : ErrorCode) : (s.raise e).inbox = s.inbox := rfl
@[simp] theorem State.raise_responses (s : State) (e : ErrorCode) : (s.raise e).responses = s.responses ++ [{ status := BitVec.ofNat 8 e.code, data := 0#32 }] := rfl
@[simp] theorem State.raise_freeIx (s : State) (e : ErrorCode) : (s.raise e).freeIx = s.freeIx := rfl

/-! ## The dirty flag -/

@[simp] theorem State.markDirty_params (s : State) : (s.markDirty).params = s.params := rfl
@[simp] theorem State.markDirty_status (s : State) : (s.markDirty).status = s.status.markDirty := rfl
@[simp] theorem State.markDirty_rbcnt (s : State) : (s.markDirty).rbcnt = s.rbcnt := rfl
@[simp] theorem State.markDirty_strat (s : State) : (s.markDirty).strat = s.strat := rfl
@[simp] theorem State.markDirty_scope (s : State) : (s.markDirty).scope = s.scope := rfl
@[simp] theorem State.markDirty_base (s : State) : (s.markDirty).base = s.base := rfl
@[simp] theorem State.markDirty_delta (s : State) : (s.markDirty).delta = s.delta := rfl
@[simp] theorem State.markDirty_ca (s : State) : (s.markDirty).ca = s.ca := rfl
@[simp] theorem State.markDirty_cb (s : State) : (s.markDirty).cb = s.cb := rfl
@[simp] theorem State.markDirty_win (s : State) : (s.markDirty).win = s.win := rfl
@[simp] theorem State.markDirty_dstBase (s : State) : (s.markDirty).dstBase = s.dstBase := rfl
@[simp] theorem State.markDirty_dstDim (s : State) : (s.markDirty).dstDim = s.dstDim := rfl
@[simp] theorem State.markDirty_dstStride (s : State) : (s.markDirty).dstStride = s.dstStride := rfl
@[simp] theorem State.markDirty_srcBase (s : State) : (s.markDirty).srcBase = s.srcBase := rfl
@[simp] theorem State.markDirty_srcDim (s : State) : (s.markDirty).srcDim = s.srcDim := rfl
@[simp] theorem State.markDirty_srcStride (s : State) : (s.markDirty).srcStride = s.srcStride := rfl
@[simp] theorem State.markDirty_lut (s : State) : (s.markDirty).lut = s.lut := rfl
@[simp] theorem State.markDirty_mem (s : State) : (s.markDirty).mem = s.mem := rfl
@[simp] theorem State.markDirty_inbox (s : State) : (s.markDirty).inbox = s.inbox := rfl
@[simp] theorem State.markDirty_responses (s : State) : (s.markDirty).responses = s.responses := rfl
@[simp] theorem State.markDirty_freeIx (s : State) : (s.markDirty).freeIx = s.freeIx := rfl

/-! ## Reset -/

@[simp] theorem State.hwReset_params (s : State) : (s.hwReset).params = s.params := rfl
@[simp] theorem State.hwReset_status (s : State) : (s.hwReset).status = State.reset.status := rfl
@[simp] theorem State.hwReset_rbcnt (s : State) : (s.hwReset).rbcnt = State.reset.rbcnt := rfl
@[simp] theorem State.hwReset_strat (s : State) : (s.hwReset).strat = State.reset.strat := rfl
@[simp] theorem State.hwReset_scope (s : State) : (s.hwReset).scope = State.reset.scope := rfl
@[simp] theorem State.hwReset_base (s : State) : (s.hwReset).base = State.reset.base := rfl
@[simp] theorem State.hwReset_delta (s : State) : (s.hwReset).delta = State.reset.delta := rfl
@[simp] theorem State.hwReset_ca (s : State) : (s.hwReset).ca = State.reset.ca := rfl
@[simp] theorem State.hwReset_cb (s : State) : (s.hwReset).cb = State.reset.cb := rfl
@[simp] theorem State.hwReset_win (s : State) : (s.hwReset).win = State.reset.win := rfl
@[simp] theorem State.hwReset_dstBase (s : State) : (s.hwReset).dstBase = State.reset.dstBase := rfl
@[simp] theorem State.hwReset_dstDim (s : State) : (s.hwReset).dstDim = State.reset.dstDim := rfl
@[simp] theorem State.hwReset_dstStride (s : State) : (s.hwReset).dstStride = State.reset.dstStride := rfl
@[simp] theorem State.hwReset_srcBase (s : State) : (s.hwReset).srcBase = State.reset.srcBase := rfl
@[simp] theorem State.hwReset_srcDim (s : State) : (s.hwReset).srcDim = State.reset.srcDim := rfl
@[simp] theorem State.hwReset_srcStride (s : State) : (s.hwReset).srcStride = State.reset.srcStride := rfl
@[simp] theorem State.hwReset_lut (s : State) : (s.hwReset).lut = State.reset.lut := rfl
@[simp] theorem State.hwReset_mem (s : State) : (s.hwReset).mem = s.mem := rfl
@[simp] theorem State.hwReset_inbox (s : State) : (s.hwReset).inbox = s.inbox := rfl
@[simp] theorem State.hwReset_responses (s : State) : (s.hwReset).responses = s.responses := rfl
@[simp] theorem State.hwReset_freeIx (s : State) : (s.hwReset).freeIx = s.freeIx := rfl

/-! ## The rebuild step -/

/-- Everything the rebuild step can do (R160): nothing, or the three assignments. -/
theorem State.ensureFresh_cases (s : State) :
    (s.status.dirty = false ∧ s.ensureFresh = s) ∨
    (s.status.dirty = true ∧ s.ensureFresh = { s with status := s.status.clearDirty, lut := some (lutGen s.strat s.base s.delta s.ca s.cb), rbcnt := s.rbcnt + 1#32 }) := by
  cases h : s.status.dirty
  · exact .inl ⟨rfl, by simp [State.ensureFresh, h]⟩
  · exact .inr ⟨rfl, by simp [State.ensureFresh, h]⟩

@[simp] theorem State.ensureFresh_params (s : State) : s.ensureFresh.params = s.params := by
  unfold State.ensureFresh; split <;> rfl
@[simp] theorem State.ensureFresh_strat (s : State) : s.ensureFresh.strat = s.strat := by
  unfold State.ensureFresh; split <;> rfl
@[simp] theorem State.ensureFresh_scope (s : State) : s.ensureFresh.scope = s.scope := by
  unfold State.ensureFresh; split <;> rfl
@[simp] theorem State.ensureFresh_base (s : State) : s.ensureFresh.base = s.base := by
  unfold State.ensureFresh; split <;> rfl
@[simp] theorem State.ensureFresh_delta (s : State) : s.ensureFresh.delta = s.delta := by
  unfold State.ensureFresh; split <;> rfl
@[simp] theorem State.ensureFresh_ca (s : State) : s.ensureFresh.ca = s.ca := by
  unfold State.ensureFresh; split <;> rfl
@[simp] theorem State.ensureFresh_cb (s : State) : s.ensureFresh.cb = s.cb := by
  unfold State.ensureFresh; split <;> rfl
@[simp] theorem State.ensureFresh_win (s : State) : s.ensureFresh.win = s.win := by
  unfold State.ensureFresh; split <;> rfl
@[simp] theorem State.ensureFresh_dstBase (s : State) : s.ensureFresh.dstBase = s.dstBase := by
  unfold State.ensureFresh; split <;> rfl
@[simp] theorem State.ensureFresh_dstDim (s : State) : s.ensureFresh.dstDim = s.dstDim := by
  unfold State.ensureFresh; split <;> rfl
@[simp] theorem State.ensureFresh_dstStride (s : State) : s.ensureFresh.dstStride = s.dstStride := by
  unfold State.ensureFresh; split <;> rfl
@[simp] theorem State.ensureFresh_srcBase (s : State) : s.ensureFresh.srcBase = s.srcBase := by
  unfold State.ensureFresh; split <;> rfl
@[simp] theorem State.ensureFresh_srcDim (s : State) : s.ensureFresh.srcDim = s.srcDim := by
  unfold State.ensureFresh; split <;> rfl
@[simp] theorem State.ensureFresh_srcStride (s : State) : s.ensureFresh.srcStride = s.srcStride := by
  unfold State.ensureFresh; split <;> rfl
@[simp] theorem State.ensureFresh_mem (s : State) : s.ensureFresh.mem = s.mem := by
  unfold State.ensureFresh; split <;> rfl
@[simp] theorem State.ensureFresh_inbox (s : State) : s.ensureFresh.inbox = s.inbox := by
  unfold State.ensureFresh; split <;> rfl
@[simp] theorem State.ensureFresh_responses (s : State) : s.ensureFresh.responses = s.responses := by
  unfold State.ensureFresh; split <;> rfl
@[simp] theorem State.ensureFresh_freeIx (s : State) : s.ensureFresh.freeIx = s.freeIx := by
  unfold State.ensureFresh; split <;> rfl

/-- After the rebuild step the table is fresh. -/
@[simp] theorem State.ensureFresh_dirty (s : State) : s.ensureFresh.status.dirty = false := by
  rcases s.ensureFresh_cases with ⟨h, e⟩ | ⟨_, e⟩
  · rw [e, h]
  · rw [e]; rfl

/-- The rebuild step is idempotent. -/
@[simp] theorem State.ensureFresh_ensureFresh (s : State) : s.ensureFresh.ensureFresh = s.ensureFresh := by
  rcases s.ensureFresh.ensureFresh_cases with ⟨_, e⟩ | ⟨h, _⟩
  · exact e
  · simp at h

/-- The error fields survive the rebuild step. -/
theorem State.ensureFresh_status (s : State) : s.ensureFresh.status = s.status.clearDirty := by
  rcases s.ensureFresh_cases with ⟨h, e⟩ | ⟨_, e⟩
  · rw [e]; cases hs : s.status; simp_all [Status.clearDirty]
  · rw [e]

/-! ## The status register -/

@[simp] theorem Status.markDirty_dirty (st : Status) : st.markDirty.dirty = true := rfl
@[simp] theorem Status.markDirty_eCfg (st : Status) : st.markDirty.eCfg = st.eCfg := rfl
@[simp] theorem Status.markDirty_eDim (st : Status) : st.markDirty.eDim = st.eDim := rfl
@[simp] theorem Status.markDirty_eDesc (st : Status) : st.markDirty.eDesc = st.eDesc := rfl
@[simp] theorem Status.markDirty_eIll (st : Status) : st.markDirty.eIll = st.eIll := rfl
@[simp] theorem Status.markDirty_lastErr (st : Status) : st.markDirty.lastErr = st.lastErr := rfl
@[simp] theorem Status.clearDirty_dirty (st : Status) : st.clearDirty.dirty = false := rfl
@[simp] theorem Status.clearDirty_eCfg (st : Status) : st.clearDirty.eCfg = st.eCfg := rfl
@[simp] theorem Status.clearDirty_eDim (st : Status) : st.clearDirty.eDim = st.eDim := rfl
@[simp] theorem Status.clearDirty_eDesc (st : Status) : st.clearDirty.eDesc = st.eDesc := rfl
@[simp] theorem Status.clearDirty_eIll (st : Status) : st.clearDirty.eIll = st.eIll := rfl
@[simp] theorem Status.clearDirty_lastErr (st : Status) : st.clearDirty.lastErr = st.lastErr := rfl
@[simp] theorem Status.clearErrors_dirty (st : Status) : st.clearErrors.dirty = st.dirty := rfl
@[simp] theorem Status.clearErrors_eCfg (st : Status) : st.clearErrors.eCfg = false := rfl
@[simp] theorem Status.clearErrors_eDim (st : Status) : st.clearErrors.eDim = false := rfl
@[simp] theorem Status.clearErrors_eDesc (st : Status) : st.clearErrors.eDesc = false := rfl
@[simp] theorem Status.clearErrors_eIll (st : Status) : st.clearErrors.eIll = false := rfl
@[simp] theorem Status.clearErrors_lastErr (st : Status) : st.clearErrors.lastErr = 0#4 := rfl

/-- Recording an error leaves DIRTY alone. -/
@[simp] theorem Status.record_dirty (st : Status) (e : ErrorCode) : (st.record e).dirty = st.dirty := by cases e <;> rfl

/-- LASTERR after an error is its code. -/
@[simp] theorem Status.record_lastErr (st : Status) (e : ErrorCode) : (st.record e).lastErr = BitVec.ofNat 4 e.code := by
  cases e <;> rfl

/-! ## The configuration setters' shared step -/

/-- An accepted operand is written and marks the table dirty; a rejected one raises ConfigurationError (R120). -/
theorem State.configure_cases (s : State) (ok : Bool) (write : State → State) :
    (ok = true ∧ s.configure ok write = (write s).markDirty.done) ∨
    (ok = false ∧ s.configure ok write = s.raise .configuration) := by
  cases ok
  · exact .inr ⟨rfl, rfl⟩
  · exact .inl ⟨rfl, rfl⟩

@[simp] theorem State.configure_true (s : State) (write : State → State) :
    s.configure true write = (write s).markDirty.done := rfl

@[simp] theorem State.configure_false (s : State) (write : State → State) :
    s.configure false write = s.raise .configuration := rfl

end Sys2Proof.Machine
end

