-- ==== Sys2Proof/Laws/Commands.lean ====
section
/-! SUPPORT. Everything a command can do, said once per shared operation: how `APPLY` ends, what its passes leave alone, how any
command ends, and what a step does with the host's next move. -/

namespace Sys2Proof.Machine

/-! ## The checks of APPLY -/

/-- The model's validation is R183's. -/
theorem Descriptor.valid_iff_usable {d : Descriptor} {n : Nat} : d.valid n = true ↔ d.Usable n := Descriptor.valid_iff

/-- Under LOG only the destination descriptor is checked (R181). -/
theorem State.applyError_log {s : State} (h : s.strat = .log) :
    (s.dst.Usable s.params.memBytes ∧ s.applyError = none) ∨
    (¬ s.dst.Usable s.params.memBytes ∧ s.applyError = some .bufferDescriptor) := by
  rw [← Descriptor.valid_iff_usable]
  unfold State.applyError
  rw [if_pos h]
  by_cases hv : s.dst.valid s.params.memBytes = true
  · exact .inl ⟨hv, by rw [if_pos hv]⟩
  · exact .inr ⟨hv, by rw [if_neg hv]⟩

/-- Under a local strategy: the dimensions first, then the descriptors and the scratch capacity (R181, R249). -/
theorem State.applyError_local {s : State} (h : s.strat ≠ .log) :
    (s.dstDim ≠ s.srcDim ∧ s.applyError = some .dimensionMismatch) ∨
    (s.dstDim = s.srcDim ∧ ¬ s.LocalReady ∧ s.applyError = some .bufferDescriptor) ∨
    (s.LocalReady ∧ s.applyError = none) := by
  have hd : s.dstDim = s.srcDim ↔ s.dst.width = s.src.width ∧ s.dst.height = s.src.height := halves_inj
  unfold State.applyError State.LocalReady
  rw [if_neg h, ← Descriptor.valid_iff_usable, ← Descriptor.valid_iff_usable]
  by_cases h1 : s.dst.width ≠ s.src.width ∨ s.dst.height ≠ s.src.height
  · rw [if_pos h1]
    exact .inl ⟨fun e => by have := hd.1 e; tauto, rfl⟩
  · rw [if_neg h1]
    have h1' : s.dst.width = s.src.width ∧ s.dst.height = s.src.height := by tauto
    refine .inr ?_
    rw [hd]
    by_cases h2 : s.dst.valid s.params.memBytes = true
    · by_cases h3 : s.src.valid s.params.memBytes = true
      · by_cases h4 : s.params.scratchPixels < s.dst.width * s.dst.height
        · exact .inl ⟨h1', by omega, by simp [h2, h3, h4]⟩
        · exact .inr ⟨⟨h1'.1, h1'.2, h2, h3, by omega⟩, by simp [h2, h3, h4]⟩
      · exact .inl ⟨h1', by tauto, by simp [h2, h3]⟩
    · exact .inl ⟨h1', by tauto, by simp [h2]⟩

/-- What validation gives every pass: the destination descriptor meets R183. -/
theorem State.usable_of_applyError {s : State} (h : s.applyError = none) : s.dst.Usable s.params.memBytes := by
  by_cases hl : s.strat = .log
  · rcases State.applyError_log hl with ⟨h1, _⟩ | ⟨_, h2⟩
    · exact h1
    · simp [h] at h2
  · rcases State.applyError_local hl with ⟨_, h2⟩ | ⟨_, _, h2⟩ | ⟨h1, _⟩
    · simp [h] at h2
    · simp [h] at h2
    · exact h1.2.2.1

/-- `APPLY` raises the error its checks name, or runs its pass and completes. -/
theorem execApply_cases (s : State) :
    (∃ e, s.applyError = some e ∧ exec .apply s = .next (s.raise e)) ∨
    (s.applyError = none ∧ exec .apply s = .next s.applyPass.done) := by
  cases h : s.applyError with
  | some e => exact .inl ⟨e, rfl, by simp [exec, execApply, h]⟩
  | none => exact .inr ⟨rfl, by simp [exec, execApply, h]⟩

/-! ## What a pass is -/

/-- The overlap test is R71's: not the same layout, and a byte in common. -/
theorem State.partialOverlap_iff {s : State} : s.partialOverlap = true ↔ ¬ s.BuffersApart := by
  have h : s.dst.sameLayout s.src = true ↔ s.dst.base = s.src.base ∧ s.dst.stride = s.src.stride := by
    simp [Descriptor.sameLayout]
  simp only [State.partialOverlap, State.BuffersApart, Bool.and_eq_true, Bool.not_eq_true', Descriptor.meets_iff]
  rw [← h, Bool.eq_false_iff]
  push Not
  rfl

/-- A pass computes one byte for each in-scope channel byte from the state as it was, and stores them. -/
theorem State.applyPass_eq (s : State) : ∃ f : Site → Byte,
    s.applyPass = { (if s.strat = .flatField then s else s.ensureFresh) with
      mem := s.mem.writeAll (s.scopeSites.map fun p => (s.dst.addr p, f p)),
      freeIx := s.applyPass.freeIx } := by
  have hl : ∀ u : State, ∃ f : Site → Byte, u.localPass =
      { u with mem := u.mem.writeAll (u.scopeSites.map fun p => (u.dst.addr p, f p)), freeIx := u.localPass.freeIx } := by
    intro u
    unfold State.localPass
    split
    · exact ⟨_, rfl⟩
    · rw [State.localStores_eq]; exact ⟨_, rfl⟩
  have hd : s.ensureFresh.dst = s.dst := by simp [State.dst]
  have hs : s.ensureFresh.scopeSites = s.scopeSites := by simp [State.scopeSites, hd]
  unfold State.applyPass
  cases h : s.strat
  · refine ⟨fun p => s.ensureFresh.lutByte (s.mem.read (s.dst.addr p)), ?_⟩
    simp [State.globalPass, State.globalStores, hd, hs]
  · simpa using hl s
  · obtain ⟨f, hf⟩ := hl s.ensureFresh
    rw [hd, hs] at hf
    exact ⟨f, by simpa using hf⟩

/-- What a pass leaves of the memory: every byte that is not an in-scope destination byte (R188, R212). -/
theorem State.applyPass_frame {s : State} (hm : s.mem.wf = true) {a : Nat} (ha : ¬ s.InScope a) :
    s.applyPass.mem.read a = s.mem.read a := by
  obtain ⟨f, hf⟩ := s.applyPass_eq
  rw [hf]
  refine Memory.read_writeAll_other hm fun w hw e => ?_
  obtain ⟨p, hp, rfl⟩ := List.mem_map.1 hw
  obtain ⟨hc, hy, hx⟩ := State.mem_scopeSites.1 hp
  exact ha ⟨p, hx, hy, hc, e.symm⟩

/-! ## How a command ends -/

/-- A command raises an error and does nothing else, or it answers status OK from a state in which the ports, the
parameters and (but for `CLRERR`) the error record are as they were. -/
theorem exec_cases (i : Instr) (s : State) :
    (∃ e, exec i s = .next (s.raise e)) ∨
    (∃ (u : State) (d : Word), exec i s = .next (u.respond 0#8 d) ∧ u.params = s.params ∧ u.inbox = s.inbox ∧
      u.responses = s.responses ∧ (i ≠ .clrerr → u.status = { s.status with dirty := u.status.dirty }) ∧
      (∀ idx, i = .lutrd idx → d = (u.lutByte idx).setWidth 32) ∧
      (∀ idx, i = .rdreg idx → s.readReg idx = some d) ∧
      ((∀ idx, i ≠ .lutrd idx) → (∀ idx, i ≠ .rdreg idx) → d = 0#32)) := by
  have hc : ∀ (ok : Bool) (wr : State → State), (wr s).params = s.params → (wr s).inbox = s.inbox →
      (wr s).responses = s.responses → (wr s).status = s.status →
      (∃ e, Host.Outcome.next (s.configure ok wr) = (.next (s.raise e) : Host.Outcome State Fault Refusal)) ∨
      (∃ u : State, Host.Outcome.next (s.configure ok wr) = (.next (u.respond 0#8 0#32) : Host.Outcome State Fault Refusal) ∧
        u.params = s.params ∧ u.inbox = s.inbox ∧ u.responses = s.responses ∧
        u.status = { s.status with dirty := u.status.dirty }) := by
    intro ok wr h1 h2 h3 h4
    rcases s.configure_cases ok wr with ⟨_, e⟩ | ⟨_, e⟩
    · exact .inr ⟨(wr s).markDirty, by rw [e]; rfl, by simpa using h1, by simpa using h2, by simpa using h3,
        by simp [h4, Status.markDirty]⟩
    · exact .inl ⟨.configuration, by rw [e]⟩
  have hf : s.ensureFresh.status = { s.status with dirty := s.ensureFresh.status.dirty } := by
    rw [State.ensureFresh_status]; rfl
  have hp : s.applyPass.params = s.params ∧ s.applyPass.inbox = s.inbox ∧ s.applyPass.responses = s.responses ∧
      s.applyPass.status = { s.status with dirty := s.applyPass.status.dirty } := by
    obtain ⟨f, e⟩ := s.applyPass_eq
    rw [e]
    split
    · exact ⟨rfl, rfl, rfl, rfl⟩
    · exact ⟨by simp, by simp, by simp, hf⟩
  cases i with
  | setstrat v =>
    simp only [exec, execSetstrat]
    split
    · rename_i st _
      exact (hc true (fun s => { s with strat := st }) rfl rfl rfl rfl).imp id fun ⟨u, h⟩ => ⟨u, 0#32, by simpa using h⟩
    · exact .inl ⟨_, rfl⟩
  | setscope v =>
    simp only [exec, execSetscope]
    split
    · rename_i m _
      exact (hc true (fun s => { s with scope := m }) rfl rfl rfl rfl).imp id fun ⟨u, h⟩ => ⟨u, 0#32, by simpa using h⟩
    · exact .inl ⟨_, rfl⟩
  | setbase v => exact (hc _ _ rfl rfl rfl rfl).imp id fun ⟨u, h⟩ => ⟨u, 0#32, by simpa [exec, execSetbase] using h⟩
  | setdelta v => exact (hc _ _ rfl rfl rfl rfl).imp id fun ⟨u, h⟩ => ⟨u, 0#32, by simpa [exec, execSetdelta] using h⟩
  | seta v => exact (hc _ _ rfl rfl rfl rfl).imp id fun ⟨u, h⟩ => ⟨u, 0#32, by simpa [exec, execSeta] using h⟩
  | setb v => exact (hc _ _ rfl rfl rfl rfl).imp id fun ⟨u, h⟩ => ⟨u, 0#32, by simpa [exec, execSetb] using h⟩
  | setwin a b => exact (hc _ _ rfl rfl rfl rfl).imp id fun ⟨u, h⟩ => ⟨u, 0#32, by simpa [exec, execSetwin] using h⟩
  | setdstbase v => exact .inr ⟨{ s with dstBase := v }, 0#32, rfl, by simp⟩
  | setdstdim a b => exact .inr ⟨{ s with dstDim := pairWord a b }, 0#32, rfl, by simp⟩
  | setdststride v => exact .inr ⟨{ s with dstStride := v }, 0#32, rfl, by simp⟩
  | setsrcbase v => exact .inr ⟨{ s with srcBase := v }, 0#32, rfl, by simp⟩
  | setsrcdim a b => exact .inr ⟨{ s with srcDim := pairWord a b }, 0#32, rfl, by simp⟩
  | setsrcstride v => exact .inr ⟨{ s with srcStride := v }, 0#32, rfl, by simp⟩
  | markdirty => exact .inr ⟨s.markDirty, 0#32, rfl, by simp [Status.markDirty]⟩
  | fresh => exact .inr ⟨s.ensureFresh, 0#32, rfl, by simpa using hf⟩
  | lutrd idx => exact .inr ⟨s.ensureFresh, _, rfl, by simpa using hf⟩
  | rdreg idx =>
    simp only [exec, execRdreg]
    split
    · rename_i v hv
      exact .inr ⟨s, v, rfl, by simp [hv]⟩
    · exact .inl ⟨_, rfl⟩
  | clrerr => exact .inr ⟨{ s with status := s.status.clearErrors }, 0#32, rfl, by simp⟩
  | apply =>
    rcases execApply_cases s with ⟨e, _, h⟩ | ⟨_, h⟩
    · exact .inl ⟨e, h⟩
    · exact .inr ⟨s.applyPass, 0#32, h, by simpa using hp⟩

/-! ## A step -/

/-- A step with a command at the port. -/
theorem step_command {s : State} {w : CommandWord} {rest : List HostMove} (h : s.inbox = .command w :: rest) :
    step s = execWord w { s with inbox := rest } := by
  unfold step; rw [h]; rfl

theorem run_succ (M : Host.Core) {s t : M.State} (h : M.step s = .next t) (k : Nat) : M.run (k + 1) s = M.run k t := by
  rw [Host.Core.run.eq_def]; simp only; rw [h]

/-- A run goes on from the next state of its first step. -/
theorem core_run_succ {s t : State} (h : step s = .next t) (k : Nat) :
    Sys2Proof.core.run (k + 1) s = Sys2Proof.core.run k t := run_succ Sys2Proof.core h k

/-- So a run is safe when its first step and the rest of it are. -/
theorem State.safeRun_succ {s t : State} (h : step s = .next t) {k : Nat} (ht : t.SafeRun k) : s.SafeRun (k + 1) := by
  obtain ⟨u, hu⟩ := ht
  exact ⟨u, (core_run_succ h k).trans hu⟩

/-- An illegal word raises IllegalCommand (R98). -/
theorem execWord_none {w : CommandWord} (h : decode w = none) (s : State) :
    execWord w s = .next (s.raise .illegalCommand) := by
  unfold execWord; rw [h]

/-- A legal word runs its command. -/
theorem execWord_some {w : CommandWord} {i : Instr} (h : decode w = some i) (s : State) : execWord w s = exec i s := by
  unfold execWord; rw [h]

end Sys2Proof.Machine
end

