-- ==== Sys2Proof/Laws/LogLut.lean ====
section
/-! SUPPORT. The logarithmic table: the comparison of powers is exact, and the bit-by-bit search finds the greatest
threshold reached. -/

namespace Sys2Proof.Machine

/-- The bounds hold of `v`. -/
def Approx.Bounds (a : Approx) (v : Nat) : Prop := a.lo * 2 ^ a.e ≤ v ∧ v ≤ a.hi * 2 ^ a.e

theorem Approx.bounds_norm {a : Approx} {v : Nat} (h : a.Bounds v) : a.norm.Bounds v := by
  unfold Approx.norm
  by_cases hs : a.hi.log2 - 127 = 0
  · simpa [hs] using h
  · simp only [hs, if_false]
    generalize a.hi.log2 - 127 = s at *
    obtain ⟨h1, h2⟩ := h
    simp only [Approx.Bounds, Nat.shiftRight_eq_div_pow, Nat.pow_add]
    constructor
    · calc a.lo / 2 ^ s * (2 ^ a.e * 2 ^ s) = a.lo / 2 ^ s * 2 ^ s * 2 ^ a.e := by ring
        _ ≤ a.lo * 2 ^ a.e := Nat.mul_le_mul_right _ (Nat.div_mul_le_self _ _)
        _ ≤ v := h1
    · have : a.hi ≤ (a.hi / 2 ^ s + 1) * 2 ^ s := by
        have := Nat.lt_div_mul_add (a := a.hi) (b := 2 ^ s) (by positivity)
        rw [Nat.add_mul]; omega
      calc v ≤ a.hi * 2 ^ a.e := h2
        _ ≤ (a.hi / 2 ^ s + 1) * 2 ^ s * 2 ^ a.e := Nat.mul_le_mul_right _ this
        _ = _ := by ring

theorem Approx.bounds_mul {a b : Approx} {u v : Nat} (ha : a.Bounds u) (hb : b.Bounds v) :
    (a.mul b).Bounds (u * v) := by
  refine Approx.bounds_norm ⟨?_, ?_⟩ <;> simp only [Nat.pow_add]
  · calc a.lo * b.lo * (2 ^ a.e * 2 ^ b.e) = a.lo * 2 ^ a.e * (b.lo * 2 ^ b.e) := by ring
      _ ≤ u * v := Nat.mul_le_mul ha.1 hb.1
  · calc u * v ≤ a.hi * 2 ^ a.e * (b.hi * 2 ^ b.e) := Nat.mul_le_mul ha.2 hb.2
      _ = _ := by ring

theorem approxPow_bounds (x : Nat) {fuel n : Nat} (h : n < 2 ^ fuel) : (approxPow x fuel n).Bounds (x ^ n) := by
  induction fuel generalizing n with
  | zero =>
    have : n = 0 := by simpa using h
    subst this; simp [approxPow, Approx.Bounds]
  | succ fuel ih =>
    unfold approxPow
    by_cases hn : n = 0
    · subst hn; simp [Approx.Bounds]
    · simp only [hn, if_false]
      have hh := ih (n := n / 2) (by rw [Nat.pow_succ] at h; omega)
      have hq := Approx.bounds_mul hh hh
      rw [← Nat.pow_add] at hq
      split
      · have := Approx.bounds_mul hq (b := { lo := x, hi := x, e := 0 }) (v := x) (by simp [Approx.Bounds])
        rw [← Nat.pow_succ] at this
        convert this using 2; omega
      · convert hq using 2; omega

theorem Approx.bounds_of_surelyLe {a b : Approx} {u v : Nat} (ha : a.Bounds u) (hb : b.Bounds v)
    (h : a.surelyLe b = true) : u ≤ v := by
  simp only [Approx.surelyLe, decide_eq_true_eq, Nat.shiftLeft_eq] at h
  have e1 : 2 ^ a.e = 2 ^ (a.e - min a.e b.e) * 2 ^ min a.e b.e := by rw [← Nat.pow_add]; congr 1; omega
  have e2 : 2 ^ b.e = 2 ^ (b.e - min a.e b.e) * 2 ^ min a.e b.e := by rw [← Nat.pow_add]; congr 1; omega
  calc u ≤ a.hi * 2 ^ a.e := ha.2
    _ = a.hi * 2 ^ (a.e - min a.e b.e) * 2 ^ min a.e b.e := by rw [Nat.mul_assoc, ← e1]
    _ ≤ b.lo * 2 ^ (b.e - min a.e b.e) * 2 ^ min a.e b.e := Nat.mul_le_mul_right _ h
    _ = b.lo * 2 ^ b.e := by rw [Nat.mul_assoc, ← e2]
    _ ≤ v := hb.1

theorem Approx.bounds_of_surelyLt {a b : Approx} {u v : Nat} (ha : a.Bounds u) (hb : b.Bounds v)
    (h : a.surelyLt b = true) : u < v := by
  simp only [Approx.surelyLt, decide_eq_true_eq, Nat.shiftLeft_eq] at h
  have e1 : 2 ^ a.e = 2 ^ (a.e - min a.e b.e) * 2 ^ min a.e b.e := by rw [← Nat.pow_add]; congr 1; omega
  have e2 : 2 ^ b.e = 2 ^ (b.e - min a.e b.e) * 2 ^ min a.e b.e := by rw [← Nat.pow_add]; congr 1; omega
  calc u ≤ a.hi * 2 ^ a.e := ha.2
    _ = a.hi * 2 ^ (a.e - min a.e b.e) * 2 ^ min a.e b.e := by rw [Nat.mul_assoc, ← e1]
    _ < b.lo * 2 ^ (b.e - min a.e b.e) * 2 ^ min a.e b.e := Nat.mul_lt_mul_of_pos_right h (by positivity)
    _ = b.lo * 2 ^ b.e := by rw [Nat.mul_assoc, ← e2]
    _ ≤ v := hb.1

/-- The comparison is exact, whichever way it was decided. -/
theorem powersLe_iff (a p b q c r d t : Nat) : powersLe a p b q c r d t = true ↔ a ^ p * b ^ q ≤ c ^ r * d ^ t := by
  unfold powersLe
  split
  · exact decide_eq_true_iff
  · rename_i h
    have hb : p + q + r + t < 2 ^ 40 := Nat.lt_of_not_le fun h' => h (.inr h')
    have hl := Approx.bounds_mul (approxPow_bounds a (lt_of_le_of_lt (show p ≤ p + q + r + t by omega) hb))
      (approxPow_bounds b (lt_of_le_of_lt (show q ≤ p + q + r + t by omega) hb))
    have hr := Approx.bounds_mul (approxPow_bounds c (lt_of_le_of_lt (show r ≤ p + q + r + t by omega) hb))
      (approxPow_bounds d (lt_of_le_of_lt (show t ≤ p + q + r + t by omega) hb))
    generalize (approxPow a 40 p).mul (approxPow b 40 q) = left at hl ⊢
    generalize (approxPow c 40 r).mul (approxPow d 40 t) = right at hr ⊢
    simp only
    split
    · rename_i hle
      exact iff_of_true rfl (Approx.bounds_of_surelyLe hl hr hle)
    · split
      · rename_i hlt
        exact iff_of_false Bool.false_ne_true (Nat.not_le_of_lt (Approx.bounds_of_surelyLt hr hl hlt))
      · exact decide_eq_true_iff

/-- What the search finds, when the test holds of every smaller threshold too: the greatest of 1 to 255 for which it holds,
or 0. -/
theorem clampSearch_spec {f : Nat → Bool} (hf : ∀ j k, 1 ≤ j → j ≤ k → f k = true → f j = true) :
    (∀ k, 1 ≤ k → k ≤ 255 → (f k = true ↔ k ≤ (clampSearch f).toNat)) := by
  have key : ∀ (n r : Nat), r + (2 ^ n - 1) ≤ 255 → (∀ k, 1 ≤ k → k ≤ r → f k = true) →
      (∀ k, r + 2 ^ n ≤ k → k ≤ 255 → f k = false) →
      let v := ((List.range n).reverse.map (2 ^ ·)).foldl (fun r b => if f (r + b) then r + b else r) r
      v ≤ 255 ∧ ∀ k, 1 ≤ k → k ≤ 255 → (f k = true ↔ k ≤ v) := by
    intro n
    induction n with
    | zero =>
      intro r hr h1 h2
      refine ⟨by simpa using hr, fun k hk hk' => ⟨fun h => ?_, h1 k hk⟩⟩
      by_contra hlt
      have := h2 k (by simp at hlt ⊢; omega) hk'
      simp_all
    | succ n ih =>
      intro r hr h1 h2
      have hp : 2 ^ (n + 1) = 2 ^ n + 2 ^ n := by rw [Nat.pow_succ]; omega
      have hpos : 0 < 2 ^ n := by positivity
      simp only [List.range_succ, List.reverse_append, List.reverse_cons, List.reverse_nil, List.nil_append,
        List.cons_append, List.map_cons, List.foldl_cons]
      by_cases hc : f (r + 2 ^ n) = true
      · simp only [hc, if_true]
        exact ih (r + 2 ^ n) (by omega) (fun k hk hk' => hf k _ hk hk' hc) fun k hk hk' => h2 k (by omega) hk'
      · simp only [hc]
        refine ih r (by omega) h1 fun k hk hk' => ?_
        by_contra hne
        exact hc (hf _ k (by omega) hk (by simpa using hne))
  have h0 := key 8 0 (by norm_num) (fun k hk hk' => by omega) (fun k hk hk' => by norm_num at hk; omega)
  intro k hk hk'
  have e : ((List.range 8).reverse.map (2 ^ ·)) = [128, 64, 32, 16, 8, 4, 2, 1] := by decide
  rw [e] at h0
  rw [h0.2 k hk hk', clampSearch, BitVec.toNat_ofNat, Nat.mod_eq_of_lt (by have := h0.1; omega)]

/-- An entry of a table given by its function. -/
@[simp] theorem Lut.entry_ofFn (f : Nat → Byte) (i : Byte) : (Lut.ofFn f).entry i = f i.toNat := by
  have := i.isLt
  simp [Lut.entry, Lut.ofFn]

/-- Tables with the same entries are equal. -/
theorem Lut.ext {t u : Lut} (h : ∀ i : Byte, t.entry i = u.entry i) : t = u := by
  refine Vector.ext fun i hi => ?_
  have := h (BitVec.ofNat 8 i)
  simp only [Lut.entry, BitVec.toNat_ofNat] at this
  simpa [Nat.mod_eq_of_lt (show i < 256 by omega)] using this

/-- The clamp of an integer as a number (R12). -/
theorem clamp8_toNat (v : Int) : ((clamp8 v).toNat : Int) = max 0 (min 255 v) := by
  unfold clamp8
  split
  · simp; omega
  · split
    · simp; omega
    · rw [BitVec.toNat_ofNat, Nat.mod_eq_of_lt (by omega)]; omega

end Sys2Proof.Machine
end

