-- ==== Sys2Proof/Laws/Passes.lean ====
section
/-! SUPPORT. The passes of `APPLY`, each said once: how a command past validation ends, what the local pass stores, the laws of
the blur, the lane sum and the combine function, and that a pass does not depend on the order of its stores. -/

namespace Sys2Proof.Machine

/-! ## Past validation -/

theorem State.applyError_none_log {s : State} (h : s.strat = .log) (hu : s.dst.Usable s.params.memBytes) :
    s.applyError = none := by
  rcases State.applyError_log h with ⟨_, h1⟩ | ⟨h1, _⟩
  · exact h1
  · exact absurd hu h1

theorem State.applyError_none_local {s : State} (h : s.strat ≠ .log) (hr : s.LocalReady) : s.applyError = none := by
  rcases State.applyError_local h with ⟨h1, _⟩ | ⟨_, h1, _⟩ | ⟨_, h1⟩
  · exact absurd (halves_inj.2 ⟨hr.1, hr.2.1⟩) h1
  · exact absurd hr h1
  · exact h1

/-- Under a local strategy an `APPLY` past validation meets all the local checks. -/
theorem State.localReady_of_applyError {s : State} (h : s.strat ≠ .log) (he : s.applyError = none) : s.LocalReady := by
  rcases State.applyError_local h with ⟨_, h2⟩ | ⟨_, _, h2⟩ | ⟨h1, _⟩
  · rw [he] at h2; cases h2
  · rw [he] at h2; cases h2
  · exact h1

theorem exec_apply_of_none {s : State} (h : s.applyError = none) : exec .apply s = .next s.applyPass.done := by
  simp [exec, execApply, h]

theorem exec_apply_of_some {s : State} {e : ErrorCode} (h : s.applyError = some e) :
    exec .apply s = .next (s.raise e) := by
  simp [exec, execApply, h]

/-! ## What a pass stores -/

theorem State.mem_scopeSites_mk {s : State} {x y c : Nat} (hx : x < s.dst.width) (hy : y < s.dst.height)
    (hc : s.scope.getLsbD c = true) : (⟨x, y, c⟩ : Site) ∈ s.scopeSites := State.mem_scopeSites.2 ⟨hc, hy, hx⟩

theorem State.scopeSites_nodup (s : State) : s.scopeSites.Nodup := sites_nodup (scopeLanes_nodup _) _ _

/-- A list of the in-scope channel bytes, each once, is the model's list in some order. -/
theorem State.perm_scopeSites {s : State} {order : List Site} (hn : order.Nodup) (ho : ∀ p : Site, p ∈ order ↔
    p.x < s.dst.width ∧ p.y < s.dst.height ∧ p.c ≤ 2 ∧ s.scope.getLsbD p.c = true) : order.Perm s.scopeSites := by
  rw [List.perm_ext_iff_of_nodup hn s.scopeSites_nodup]
  intro p
  rw [ho, State.mem_scopeSites]
  constructor
  · rintro ⟨hx, hy, _, hc⟩; exact ⟨hc, hy, hx⟩
  · rintro ⟨hc, hy, hx⟩
    have : p.c < 3 := BitVec.lt_of_getLsbD hc
    exact ⟨hx, hy, by omega, hc⟩

/-- An address is in scope exactly when some visited channel byte has it. -/
theorem State.inScope_iff {s : State} {a : Nat} : s.InScope a ↔ ∃ p ∈ s.scopeSites, s.dst.addr p = a := by
  constructor
  · rintro ⟨p, hx, hy, hc, rfl⟩; exact ⟨p, State.mem_scopeSites.2 ⟨hc, hy, hx⟩, rfl⟩
  · rintro ⟨p, hp, rfl⟩
    obtain ⟨hc, hy, hx⟩ := State.mem_scopeSites.1 hp
    exact ⟨p, hx, hy, hc, rfl⟩

/-- The visited channel bytes of the destination lie in its footprint. -/
theorem State.covers_dst {s : State} {p : Site} (hp : p ∈ s.scopeSites) : s.dst.covers (s.dst.addr p) := by
  obtain ⟨_, hy, hx⟩ := State.mem_scopeSites.1 hp
  have := State.scopeSites_lane hp
  exact ⟨p, hx, hy, by omega, rfl⟩

/-- When the dimensions agree, the source bytes at the same places lie in the source's footprint. -/
theorem State.covers_src {s : State} (hr : s.LocalReady) {p : Site} (hp : p ∈ s.scopeSites) :
    s.src.covers (s.src.addr p) := by
  obtain ⟨_, hy, hx⟩ := State.mem_scopeSites.1 hp
  have := State.scopeSites_lane hp
  exact ⟨p, hr.1 ▸ hx, hr.2.1 ▸ hy, by omega, rfl⟩

/-- The rebuild step moves neither the buffers nor what the local pass reads of them. -/
@[simp] theorem State.ensureFresh_dst (s : State) : s.ensureFresh.dst = s.dst := by simp [State.dst]
@[simp] theorem State.ensureFresh_src (s : State) : s.ensureFresh.src = s.src := by simp [State.src]
@[simp] theorem State.ensureFresh_scopeSites (s : State) : s.ensureFresh.scopeSites = s.scopeSites := by
  simp [State.scopeSites]
@[simp] theorem State.ensureFresh_workingCopy (s : State) : s.ensureFresh.workingCopy = s.workingCopy := by
  unfold State.workingCopy; simp
@[simp] theorem State.ensureFresh_partialOverlap (s : State) : s.ensureFresh.partialOverlap = s.partialOverlap := by
  simp [State.partialOverlap]

/-- The global pass of `APPLY`: one store through the refreshed table for each visited channel byte. -/
theorem State.applyPass_log {s : State} (h : s.strat = .log) : s.applyPass = { s.ensureFresh with
    mem := s.mem.writeAll (s.scopeSites.map fun p => (s.dst.addr p, s.ensureFresh.lutByte (s.mem.read (s.dst.addr p)))) } := by
  unfold State.applyPass; rw [h]
  simp [State.globalPass, State.globalStores]

/-- The local pass with the buffers apart. -/
theorem State.localPass_apart {s : State} (h : s.BuffersApart) : s.localPass = { s with
    mem := s.mem.writeAll (s.scopeSites.map fun p => (s.dst.addr p, s.combine (s.workingCopy p.x p.y p.c)
      (blur s.dst.width s.dst.height (lowHalf s.win).toNat (highHalf s.win).toNat s.workingCopy p.x p.y p.c)
      (if s.strat = .flatField then laneSum s.dst.width s.dst.height s.workingCopy p.c else 0)
      (s.dst.width * s.dst.height))) } := by
  have hp : s.partialOverlap = false := by
    rw [Bool.eq_false_iff]; intro hp; exact State.partialOverlap_iff.1 hp h
  unfold State.localPass; rw [hp, State.localStores_eq]; rfl

/-- The local pass with a partial overlap: free bytes in scope. -/
theorem State.localPass_partial {s : State} (h : ¬ s.BuffersApart) : s.localPass = { s with
    mem := s.mem.writeAll (s.scopeSites.map fun p => (s.dst.addr p, Config.freeOverlapByte s.freeIx (s.dst.addr p))),
    freeIx := s.freeIx + 1 } := by
  unfold State.localPass; rw [if_pos (State.partialOverlap_iff.2 h)]

/-! ## The blur, the sum, the combine -/

/-- The lane sum of R205 as a double sum. -/
theorem laneSum_eq_sum (w h : Nat) (img : Img) (c : Nat) :
    laneSum w h img c = ∑ v ∈ Finset.range h, ∑ u ∈ Finset.range w, (img u v c).toNat := by
  have hs : ∀ (n : Nat) (f : Nat → Nat), ((List.range n).map f).sum = ∑ v ∈ Finset.range n, f v := by
    intro n f
    induction n with
    | zero => rfl
    | succ n ih => rw [List.range_succ, List.map_append, List.sum_append, ih, Finset.sum_range_succ]; simp
  simp only [laneSum, hs]

theorem laneUniform_iff {w h : Nat} {img : Img} {c : Nat} :
    laneUniform w h img c = true ↔ ∀ y, y < h → ∀ x, x < w → img x y c = img 0 0 c := by
  simp only [laneUniform, List.all_eq_true, List.mem_range, decide_eq_true_eq]

/-- Images that agree within the frame have the same packed bytes. -/
theorem packed_congr {w h : Nat} {img img' : Img}
    (e : ∀ x y c, x < w → y < h → c ≤ 3 → img' x y c = img x y c) : packed w h img' = packed w h img := by
  refine List.flatMap_congr fun y hy => List.flatMap_congr fun x hx => ?_
  rw [List.mem_range] at hy hx
  rw [e x y 0 hx hy (by omega), e x y 1 hx hy (by omega), e x y 2 hx hy (by omega), e x y 3 hx hy (by omega)]

/-- The combine function away from its guard (R206). -/
theorem ffCombine_toNat {s r : Byte} {sum n : Nat} (hr : r ≠ 0#8) :
    (ffCombine s r sum n).toNat = min 255 ((s.toNat * sum) / (r.toNat * n)) := by
  simp only [ffCombine, if_neg hr, BitVec.toNat_ofNat]
  exact Nat.mod_eq_of_lt (Nat.lt_of_le_of_lt (Nat.min_le_left _ _) (by decide))

/-! ## Order of the stores -/

/-- Writing byte by byte, each read late, is the simultaneous assignment when no read address is another's store. -/
theorem Memory.foldl_write_eq_writeAll {A R : Site → Nat} {f : Site → Byte → Byte} (L : List Site) (m : Memory)
    (hm : m.wf = true) (hn : L.Nodup) (hd : ∀ p ∈ L, ∀ q ∈ L, q ≠ p → A q ≠ R p) :
    L.foldl (fun m p => m.write (A p) (f p (m.read (R p)))) m =
      m.writeAll (L.map fun p => (A p, f p (m.read (R p)))) := by
  induction L generalizing m with
  | nil => rfl
  | cons p L ih =>
    rw [List.nodup_cons] at hn
    simp only [List.foldl_cons, List.map_cons]
    rw [ih _ (Memory.wf_write hm _ _) hn.2 (fun a ha b hb => hd a (by simp [ha]) b (by simp [hb]))]
    show _ = (m.write _ _).writeAll _
    congr 1
    refine List.map_congr_left fun q hq => ?_
    have : R q ≠ A p := fun e => hd q (by simp [hq]) p (by simp) (fun e => hn.1 (e ▸ hq)) e.symm
    rw [Memory.read_write hm, if_neg this]

/-- Stores to distinct addresses commute. -/
theorem Memory.writeAll_perm {m : Memory} (hm : m.wf = true) {ws ws' : List (Nat × Byte)} (hp : ws.Perm ws')
    (hn : (ws.map Prod.fst).Nodup) : m.writeAll ws = m.writeAll ws' := by
  have hn' : (ws'.map Prod.fst).Nodup := (hp.map Prod.fst).nodup_iff.1 hn
  refine Memory.ext (Memory.wf_writeAll hm _) (Memory.wf_writeAll hm _) fun a => ?_
  by_cases ha : ∃ w ∈ ws, w.1 = a
  · obtain ⟨w, hw, rfl⟩ := ha
    rw [Memory.read_writeAll_mem hm hn hw, Memory.read_writeAll_mem hm hn' (hp.mem_iff.1 hw)]
  · rw [Memory.read_writeAll_other hm fun w hw e => ha ⟨w, hw, e⟩,
      Memory.read_writeAll_other hm fun w hw e => ha ⟨w, hp.mem_iff.2 hw, e⟩]

end Sys2Proof.Machine
end

