-- ==== Sys2Proof/Laws/PerInstr.lean ====
section
/-! SUPPORT. Facts about every command as syntax, one lemma per constructor. -/

namespace Sys2Proof.Laws.WellFormedWord

/-- The word of the command is well formed (R98 finds nothing wrong with it), and the row of the opcode map with the command's
own mnemonic accepts it (R95). -/
def Statement (i : Instr) : Prop :=
  wellFormedWord (encode i) = true ∧ ∃ r ∈ opcodeTable, r.mnemonic = i.mnemonic ∧ r.accepts (encode i) = true

/-- It is enough to name the row, to see that the operand keeps the row's zero bits zero, and to run the two operand checks. -/
theorem statement_of {i : Instr} {r : Row} (hr : r ∈ opcodeTable) (hm : r.mnemonic = i.mnemonic) (ho : r.op = i.opcode)
    (hz : i.operand &&& r.format.zeroMask = 0#32)
    (hc : (noOperandZero (encode i) && indexFits (encode i)) = true) : Statement i := by
  refine ⟨?_, r, hr, hm, ?_⟩
  · have h1 : opcodeAssigned (encode i) = true := List.any_eq_true.2 ⟨r, hr, by simp [encode, ho]⟩
    have h2 : reservedZero (encode i) = true := by simp [reservedZero, encode]
    simp only [wellFormedWord, h1, h2, Bool.true_and]; exact hc
  · simp [Row.accepts, encode, ho, hz]

theorem setstrat (v : Word) : Statement (.setstrat v) :=
  statement_of (r := ⟨"SETSTRAT", 0x01#8, .i32⟩) (by decide) rfl rfl (by simp [Instr.operand, Format.zeroMask])
    (by simp [noOperandZero, indexFits, encode, opcodeTable, Instr.opcode])

theorem setscope (v : Word) : Statement (.setscope v) :=
  statement_of (r := ⟨"SETSCOPE", 0x02#8, .i32⟩) (by decide) rfl rfl (by simp [Instr.operand, Format.zeroMask])
    (by simp [noOperandZero, indexFits, encode, opcodeTable, Instr.opcode])

theorem setbase (v : Word) : Statement (.setbase v) :=
  statement_of (r := ⟨"SETBASE", 0x03#8, .i32⟩) (by decide) rfl rfl (by simp [Instr.operand, Format.zeroMask])
    (by simp [noOperandZero, indexFits, encode, opcodeTable, Instr.opcode])

theorem setdelta (v : Word) : Statement (.setdelta v) :=
  statement_of (r := ⟨"SETDELTA", 0x04#8, .i32⟩) (by decide) rfl rfl (by simp [Instr.operand, Format.zeroMask])
    (by simp [noOperandZero, indexFits, encode, opcodeTable, Instr.opcode])

theorem seta (v : Word) : Statement (.seta v) :=
  statement_of (r := ⟨"SETA", 0x05#8, .i32⟩) (by decide) rfl rfl (by simp [Instr.operand, Format.zeroMask])
    (by simp [noOperandZero, indexFits, encode, opcodeTable, Instr.opcode])

theorem setb (v : Word) : Statement (.setb v) :=
  statement_of (r := ⟨"SETB", 0x06#8, .i32⟩) (by decide) rfl rfl (by simp [Instr.operand, Format.zeroMask])
    (by simp [noOperandZero, indexFits, encode, opcodeTable, Instr.opcode])

theorem setwin (ww wh : Half) : Statement (.setwin ww wh) :=
  statement_of (r := ⟨"SETWIN", 0x07#8, .p16⟩) (by decide) rfl rfl (by simp [Instr.operand, Format.zeroMask])
    (by simp [noOperandZero, indexFits, encode, opcodeTable, Instr.opcode])

theorem setdstbase (v : Word) : Statement (.setdstbase v) :=
  statement_of (r := ⟨"SETDSTBASE", 0x10#8, .i32⟩) (by decide) rfl rfl (by simp [Instr.operand, Format.zeroMask])
    (by simp [noOperandZero, indexFits, encode, opcodeTable, Instr.opcode])

theorem setdstdim (w h : Half) : Statement (.setdstdim w h) :=
  statement_of (r := ⟨"SETDSTDIM", 0x11#8, .p16⟩) (by decide) rfl rfl (by simp [Instr.operand, Format.zeroMask])
    (by simp [noOperandZero, indexFits, encode, opcodeTable, Instr.opcode])

theorem setdststride (v : Word) : Statement (.setdststride v) :=
  statement_of (r := ⟨"SETDSTSTRIDE", 0x12#8, .i32⟩) (by decide) rfl rfl (by simp [Instr.operand, Format.zeroMask])
    (by simp [noOperandZero, indexFits, encode, opcodeTable, Instr.opcode])

theorem setsrcbase (v : Word) : Statement (.setsrcbase v) :=
  statement_of (r := ⟨"SETSRCBASE", 0x13#8, .i32⟩) (by decide) rfl rfl (by simp [Instr.operand, Format.zeroMask])
    (by simp [noOperandZero, indexFits, encode, opcodeTable, Instr.opcode])

theorem setsrcdim (w h : Half) : Statement (.setsrcdim w h) :=
  statement_of (r := ⟨"SETSRCDIM", 0x14#8, .p16⟩) (by decide) rfl rfl (by simp [Instr.operand, Format.zeroMask])
    (by simp [noOperandZero, indexFits, encode, opcodeTable, Instr.opcode])

theorem setsrcstride (v : Word) : Statement (.setsrcstride v) :=
  statement_of (r := ⟨"SETSRCSTRIDE", 0x15#8, .i32⟩) (by decide) rfl rfl (by simp [Instr.operand, Format.zeroMask])
    (by simp [noOperandZero, indexFits, encode, opcodeTable, Instr.opcode])

theorem markdirty : Statement (.markdirty) :=
  statement_of (r := ⟨"MARKDIRTY", 0x20#8, .z⟩) (by decide) rfl rfl (by decide)
    (by decide)

theorem fresh : Statement (.fresh) :=
  statement_of (r := ⟨"FRESH", 0x21#8, .z⟩) (by decide) rfl rfl (by decide)
    (by decide)

theorem lutrd (idx : Byte) : Statement (.lutrd idx) :=
  statement_of (r := ⟨"LUTRD", 0x22#8, .i8⟩) (by decide) rfl rfl (by simp only [Instr.operand, indexWord, Format.zeroMask]; revert idx; decide)
    (by simp [noOperandZero, indexFits, encode, opcodeTable, Instr.opcode, Instr.operand])

theorem rdreg (idx : Byte) : Statement (.rdreg idx) :=
  statement_of (r := ⟨"RDREG", 0x23#8, .i8⟩) (by decide) rfl rfl (by simp only [Instr.operand, indexWord, Format.zeroMask]; revert idx; decide)
    (by simp [noOperandZero, indexFits, encode, opcodeTable, Instr.opcode, Instr.operand])

theorem clrerr : Statement (.clrerr) :=
  statement_of (r := ⟨"CLRERR", 0x24#8, .z⟩) (by decide) rfl rfl (by decide)
    (by decide)

theorem apply : Statement (.apply) :=
  statement_of (r := ⟨"APPLY", 0x30#8, .z⟩) (by decide) rfl rfl (by decide)
    (by decide)

end Sys2Proof.Laws.WellFormedWord
end

