-- ==== Sys2Proof/Tests/Slice0.lean ====
section
/-! SUPPORT. Tests whose expected results come from the spec (the encodings of R96, the vectors T and programs P of
95_test_vectors), the refusals of the well-formedness checks, and for each statement with hypotheses a concrete input that
meets them. -/

namespace Sys2Proof.Tests

open Sys2Proof.Machine

/-! ## Well-formedness: one ill-formed word for each check, and a well-formed one -/

/-- T96: opcode 0x16 is not assigned. -/
theorem test_wf_opcode : opcodeAssigned 0x1600000000000000#64 = false ∧ wellFormedWord 0x1600000000000000#64 = false := by
  decide

/-- T93: the reserved field is not zero. -/
theorem test_wf_reserved : reservedZero 0x0300000100020000#64 = false ∧ wellFormedWord 0x0300000100020000#64 = false := by
  decide

/-- T92: a command without operand whose `imm` is not zero. -/
theorem test_wf_no_operand :
    noOperandZero 0x2000000000000001#64 = false ∧ wellFormedWord 0x2000000000000001#64 = false := by decide

/-- T94: an index above 255. -/
theorem test_wf_index : indexFits 0x2200000000000100#64 = false ∧ wellFormedWord 0x2200000000000100#64 = false := by decide

/-- T95: the word of `RDREG 0x10` is well formed; the error is the command's. -/
theorem test_wf_accepts : wellFormedWord 0x2300000000000010#64 = true ∧ wellFormedWord 0x0700000000050003#64 = true := by
  decide

/-! ## Decoding: every constructor, by a word made of the fields of R92 -/

/-- The configuration setters; the operand bits are written out. -/
theorem test_decode_config :
    decode (0b00000001#8 ++ (0#24 ++ 0x00000002#32)) = some (.setstrat 2#32) ∧
    decode (0b00000010#8 ++ (0#24 ++ 0x00000007#32)) = some (.setscope 7#32) ∧
    decode (0b00000011#8 ++ (0#24 ++ 0x7FFFFFFF#32)) = some (.setbase 0x7FFFFFFF#32) ∧
    decode (0b00000100#8 ++ (0#24 ++ 0xFFFF0000#32)) = some (.setdelta 0xFFFF0000#32) ∧
    decode (0b00000101#8 ++ (0#24 ++ 0x00020000#32)) = some (.seta 0x00020000#32) ∧
    decode (0b00000110#8 ++ (0#24 ++ 0x80000000#32)) = some (.setb 0x80000000#32) ∧
    decode (0b00000111#8 ++ (0#24 ++ 0b00000000000001010000000000000011#32)) = some (.setwin 3#16 5#16) := by decide

/-- The descriptor setters (T98: `W = 640`, `H = 480`). -/
theorem test_decode_descriptors :
    decode (0b00010000#8 ++ (0#24 ++ 0x00000100#32)) = some (.setdstbase 0x100#32) ∧
    decode 0x1100000001E00280#64 = some (.setdstdim 640#16 480#16) ∧
    decode (0b00010010#8 ++ (0#24 ++ 0x00000004#32)) = some (.setdststride 4#32) ∧
    decode (0b00010011#8 ++ (0#24 ++ 0x00000500#32)) = some (.setsrcbase 0x500#32) ∧
    decode 0x1400000000020003#64 = some (.setsrcdim 3#16 2#16) ∧
    decode (0b00010101#8 ++ (0#24 ++ 0xFFFFFFFF#32)) = some (.setsrcstride 0xFFFFFFFF#32) := by decide

/-- The table, status and apply commands. -/
theorem test_decode_others :
    decode (0b00100000#8 ++ 0#56) = some .markdirty ∧ decode (0b00100001#8 ++ 0#56) = some .fresh ∧
    decode (0b00100010#8 ++ (0#48 ++ 0x80#8)) = some (.lutrd 128#8) ∧
    decode (0b00100011#8 ++ (0#48 ++ 0x10#8)) = some (.rdreg 16#8) ∧
    decode (0b00100100#8 ++ 0#56) = some .clrerr ∧ decode (0b00110000#8 ++ 0#56) = some .apply := by decide

/-- T90 to T94 and T96 are illegal. -/
theorem test_decode_illegal : [0x0000000000000000#64, 0xFFFFFFFFFFFFFFFF#64, 0x2000000000000001#64,
    0x0300000100020000#64, 0x2200000000000100#64, 0x0800000000000000#64, 0x1600000000000000#64, 0x2500000000000000#64,
    0x3100000000000000#64].map decode = List.replicate 9 none := by decide

/-- The host's numbering is the word's. -/
theorem test_decodeTableWord : decodeTableWord 64 0x0700000000050003 = some (.setwin 3#16 5#16) ∧
    decodeTableWord 64 0x2000000000000001 = none := by decide +kernel

/-! ## Helpers -/

/-- What a command word does: the response's status and data, register `idx` and STATUS after. -/
def outcome (w : CommandWord) (idx : Byte) (s : State) : Option (Nat × Nat × Nat × Nat) :=
  match execWord w s with
  | .next t => t.responses.getLast?.map fun r =>
      (r.status.toNat, r.data.toNat, ((t.readReg idx).getD 0#32).toNat, t.status.word.toNat)
  | _ => none

/-- The memory after a command word, `n` bytes from `a`. -/
def memoryAfter (w : CommandWord) (a n : Nat) (s : State) : Option (List Nat) :=
  match execWord w s with
  | .next t => some ((List.range n).map fun k => (t.mem.read (a + k)).toNat)
  | _ => none

/-- Reset with DIRTY cleared and RBCNT 1 (the start of T30 to T48; the setters do not read the table). -/
def clean : State := { State.reset with status := { State.reset.status with dirty := false }, rbcnt := 1#32 }

/-- Bytes of memory from `a`. -/
def bytes (a : Nat) (bs : List Byte) : Memory := Memory.writeAll [] ((List.range bs.length).map fun k => (a + k, bs.getD k 0#8))

/-- A `w × h` image at `dst`, its source at `src`, rows of `stride` bytes. -/
def image (strat : Strategy) (dst src : Word) (w h : Half) (stride : Word) (m : Memory) : State :=
  { State.reset with strat := strat, dstBase := dst, dstDim := pairWord w h, dstStride := stride,
                     srcBase := src, srcDim := pairWord w h, srcStride := stride, mem := m }

/-- P1's buffer. -/
def pixel : State := image .log 0x100#32 0x100#32 1#16 1#16 4#32 (bytes 0x100 [0x80#8, 0x40#8, 0xFF#8, 0x7F#8])

/-- A 2×1 image in place whose lane 0 is 128 at both pixels. -/
def inPlace (strat : Strategy) : State :=
  image strat 0x200#32 0x200#32 2#16 1#16 8#32 (bytes 0x200 [0x80#8, 0x01#8, 0x02#8, 0xFF#8, 0x80#8, 0x03#8])

/-- The same source with a destination of its own. -/
def separate (strat : Strategy) : State := { inPlace strat with dstBase := 0x300#32 }

/-- The destination one pixel above the source: a partial overlap. -/
def overlapping (strat : Strategy) : State := { inPlace strat with dstBase := 0x204#32 }

/-! ## Results from the vectors of 95_test_vectors -/

/-- T30 to T32. -/
theorem test_setstrat : outcome 0x0100000000000002#64 3#8 clean = some (0, 0, 2, 0x001) ∧
    outcome 0x0100000000000003#64 3#8 clean = some (1, 0, 0, 0x110) ∧
    outcome 0x0100000000000000#64 3#8 clean = some (0, 0, 0, 0x001) := by decide

/-- R25, and what each code does: 0 is LOG, 1 FLATFIELD, 2 CONTRAST. -/
theorem test_strategy_codes : (∃ t, exec (.setstrat 0#32) { clean with strat := .contrast } = .next t ∧ t.strat = .log) ∧
    (∃ t, exec (.setstrat 1#32) clean = .next t ∧ t.strat = .flatField) ∧
    (∃ t, exec (.setstrat 2#32) clean = .next t ∧ t.strat = .contrast) := ⟨⟨_, rfl, rfl⟩, ⟨_, rfl, rfl⟩, ⟨_, rfl, rfl⟩⟩

/-- T33, T34. -/
theorem test_setscope : outcome 0x0200000000000000#64 4#8 clean = some (0, 0, 0, 0x001) ∧
    outcome 0x0200000000000007#64 4#8 clean = some (0, 0, 7, 0x001) ∧
    outcome 0x0200000000000008#64 4#8 clean = some (1, 0, 7, 0x110) := by decide

/-- T35 to T38, T40. -/
theorem test_setbase : outcome 0x0300000000000001#64 5#8 clean = some (0, 0, 1, 0x001) ∧
    outcome 0x030000007FFFFFFF#64 5#8 clean = some (0, 0, 0x7FFFFFFF, 0x001) ∧
    outcome 0x0300000000000000#64 5#8 clean = some (1, 0, 0x00020000, 0x110) ∧
    outcome 0x0300000000010000#64 5#8 clean = some (1, 0, 0x00020000, 0x110) ∧
    outcome 0x03000000FFFFFFFF#64 5#8 clean = some (1, 0, 0x00020000, 0x110) := by decide

/-- T42, T43a, T43b. -/
theorem test_setdelta : outcome 0x0400000000010000#64 6#8 clean = some (0, 0, 0x00010000, 0x001) ∧
    outcome 0x04000000FFFF0000#64 6#8 clean = some (0, 0, 0xFFFF0000, 0x001) ∧
    outcome 0x0400000000010001#64 6#8 clean = some (1, 0, 0, 0x110) ∧
    outcome 0x04000000FFFEFFFF#64 6#8 clean = some (1, 0, 0, 0x110) := by decide

/-- T44a, T44b. -/
theorem test_seta : outcome 0x0500000000020000#64 7#8 clean = some (1, 0, 0, 0x110) ∧
    outcome 0x05000000FFFF0000#64 7#8 clean = some (0, 0, 0xFFFF0000, 0x001) := by decide

/-- T45. -/
theorem test_setb : outcome 0x0600000080000000#64 8#8 clean = some (1, 0, 0, 0x110) := by decide

/-- T46 to T48. -/
theorem test_setwin : outcome 0x0700000000050003#64 9#8 clean = some (0, 0, 0x00050003, 0x001) ∧
    outcome 0x0700000000050000#64 9#8 clean = some (1, 0, 0x00010001, 0x110) ∧
    outcome 0x0700000000000005#64 9#8 clean = some (1, 0, 0x00010001, 0x110) ∧
    outcome 0x07000000FFFFFFFF#64 9#8 clean = some (0, 0, 0xFFFFFFFF, 0x001) := by decide

/-- Section 5 of the vectors: every operand is accepted and DIRTY is not touched. -/
theorem test_descriptor_setters : outcome 0x1100000000000000#64 0x0B#8 clean = some (0, 0, 0, 0) ∧
    outcome 0x15000000FFFFFFFF#64 0x0F#8 clean = some (0, 0, 0xFFFFFFFF, 0) := by decide

/-- T60 to T70. -/
theorem test_valid : ([⟨0, 0, 0, 0⟩, ⟨0x100, 1, 1, 4⟩, ⟨0x100, 1, 1, 3⟩, ⟨0x100, 2, 0, 8⟩, ⟨0xFFFFFFFC, 1, 1, 4⟩,
      ⟨0xFFFFFFFD, 1, 1, 4⟩, ⟨0, 1, 1, 0xFFFFFFFF⟩, ⟨0, 1, 2, 0xFFFFFFFF⟩, ⟨0, 1024, 1024, 4096⟩,
      ⟨0, 65535, 65535, 262140⟩, ⟨0x1000, 2, 2, 12⟩] : List Descriptor).map (·.valid (2 ^ 32)) =
    [false, true, false, false, true, false, true, false, true, false, true] := by decide

/-- T1, T6 (the exact case at 85), T8, T11. -/
theorem test_logLut_entries : [logEntry 0x00020000#32 0#32 128, logEntry 0x00040000#32 0x100#32 85,
    logEntry 0x00040000#32 0xFF#32 85, logEntry 0x00000001#32 0#32 254, logEntry 0x7FFFFFFF#32 0#32 1] =
      [149#8, 128#8, 127#8, 127#8, 119#8] := by decide +kernel

/-- T3, T5, T10, T12. -/
theorem test_logLut_more : [logEntry 0x00008000#32 0#32 128, logEntry 0x00020000#32 0xFFFF0000#32 127,
    logEntry 0x0000FFFF#32 0#32 254, logEntry 0x00020000#32 0x00010000#32 0] =
      [106#8, 20#8, 253#8, 128#8] := by decide +kernel

/-- T23 (100 and 10, worked by hand), T24, T28. -/
theorem test_conLut_entries : [(0x00008000#32, 0#32, 100), (0x00008000#32, 0#32, 10), (0#32, 0x00004000#32, 63),
    (0xFFFF8000#32, 0#32, 255)].map (fun p => clamp8 (conNum p.1 p.2.1 p.2.2 / 131072)) = [86#8, 0#8, 126#8, 191#8] := by
  decide

/-- T50 to T53, T58, T59, T59c. -/
theorem test_ffCombine : [ffCombine 128 128 512 4, ffCombine 100 50 360 4, ffCombine 200 60 360 4, ffCombine 60 0 360 4,
    ffCombine 1 255 1 4, ffCombine 10 3 100 7, ffCombine 128 255 1095183237375 4294836225] =
      [128#8, 180#8, 255#8, 60#8, 0#8, 47#8, 128#8] := by decide

/-- T81, T83, T84, T87, T88. -/
theorem test_ksiIndex : [ksiIndex 100 80, ksiIndex 0 255, ksiIndex 255 0, ksiIndex 127 255, ksiIndex 128 255] =
    [120#8, 0#8, 255#8, 0#8, 1#8] := by decide

/-- R161: `MARKDIRTY`. -/
theorem test_markdirty : outcome 0x2000000000000000#64 2#8 clean = some (0, 0, 1, 0x001) := by decide

/-- S2: the first `FRESH` rebuilds, one on a fresh table does not. -/
theorem test_fresh : outcome 0x2100000000000000#64 2#8 State.reset = some (0, 0, 1, 0x000) ∧
    outcome 0x2100000000000000#64 2#8 clean = some (0, 0, 1, 0x000) := by decide

/-- T99. -/
theorem test_lutrd : outcome 0x2200000000000080#64 2#8 State.reset = some (0, 149, 1, 0x000) := by
  decide +kernel

/-- T100, T95. -/
theorem test_rdreg : outcome 0x2300000000000000#64 0#8 State.reset = some (0, 0x554D5807, 0x554D5807, 0x001) ∧
    outcome 0x2300000000000010#64 0#8 State.reset = some (4, 0, 0x554D5807, 0x481) := by decide

/-- P6, its last error and `CLRERR`. -/
theorem test_clrerr : outcome 0x2400000000000000#64 1#8 { State.reset with
    status := { State.reset.status with eCfg := true, eDesc := true, eIll := true, lastErr := 3#4 } } =
      some (0, 0, 1, 0x001) := by decide

/-- P1: 128 to 149, 64 to 82, 255 to 255, lane 3 untouched. -/
theorem test_apply_log : memoryAfter 0x3000000000000000#64 0x100 4 pixel = some [0x95, 0x52, 0xFF, 0x7F] := by
  decide +kernel

/-- P2 (its first row): a uniform image comes out unchanged, DIRTY stays. -/
theorem test_apply_flatField : (outcome 0x3000000000000000#64 2#8
      { image .flatField 0x200#32 0x200#32 2#16 1#16 8#32 (bytes 0x200 (List.replicate 8 0x80#8)) with win := 0x00030003#32 }) =
        some (0, 0, 0, 0x001) ∧
    memoryAfter 0x3000000000000000#64 0x200 8
      { image .flatField 0x200#32 0x200#32 2#16 1#16 8#32 (bytes 0x200 (List.replicate 8 0x80#8)) with win := 0x00030003#32 } =
        some (List.replicate 8 0x80) := by decide

/-- The host's view: the word placed by `withFetchWord` is what the next step runs (P6: `APPLY` from reset answers 3). -/
theorem test_step : ∃ t, step (State.reset.withFetchWord 64 0x3000000000000000) = .next t ∧
    t.responses = [{ status := 3#8, data := 0#32 }] ∧ t.status.word = 0x341#32 := ⟨_, rfl, by decide, by decide⟩

/-- R100's literals: `q(0.5)`, `q(-0.25)`, `q(2.718281828)`. -/
theorem test_qWord : qWord 5 1 = some 0x00008000#32 ∧ qWord (-25) 2 = some 0xFFFFC000#32 ∧
    qWord 2718281828 9 = some 0x0002B7E1#32 ∧ qWord 32768 0 = none := by decide

/-! ## Witnesses: a concrete input for the hypotheses of each statement, one for each clause -/

theorem witness_EncodeOfDecode : decode 0x22000000000000FF#64 = some (.lutrd 255#8) := by decide

theorem witness_IllegalCommands :
    ({ State.reset with inbox := [.command 0x3100000000000000#64, .reset] } : State).inbox =
      .command 0x3100000000000000#64 :: [.reset] ∧ decode 0x3100000000000000#64 = none ∧ 0x0F < (0x10#8 : Byte).toNat ∧
      0x0F < (0xFF#8 : Byte).toNat := by decide

theorem witness_StepRunsThePresentedCommand :
    ({ State.reset with inbox := [.command 0x2400000000000000#64] } : State).inbox = .command 0x2400000000000000#64 :: [] ∧
      decode 0x2400000000000000#64 = some .clrerr := by decide

/-- The last byte that exists, and the first that does not. -/
theorem witness_IdleAndHostWrites : State.reset.inbox = [] ∧
    ({ State.reset with inbox := [.memWrite 0xFFFFFFFF 5#8] } : State).inbox = .memWrite 0xFFFFFFFF 5#8 :: [] ∧
    State.reset.mem.wf = true ∧ 0xFFFFFFFF < State.reset.params.memBytes ∧ State.reset.params.memBytes ≤ 0x100000000 := by
  decide

/-- An `LUTRD`, an `RDREG`, a failing command and a plain one at the port. -/
theorem witness_OneResponsePerCommand : ∃ s : State, s.inbox = .command 0x2200000000000080#64 :: [] ∧
    decode 0x2200000000000080#64 = some (.lutrd 128#8) ∧ decode 0x230000000000000F#64 = some (.rdreg 15#8) ∧
    decode 0x0000000000000000#64 = none ∧ decode 0x2000000000000000#64 = some .markdirty :=
  ⟨{ State.reset with inbox := [.command 0x2200000000000080#64] }, by decide⟩

theorem witness_ResetGivesTheResetValues : ({ pixel with inbox := [.reset] } : State).inbox = .reset :: [] := by decide

/-- An `APPLY` past validation is cut short. -/
theorem witness_ResetDuringACommand :
    ({ pixel with inbox := [.resetDuring 0x3000000000000000#64] } : State).inbox = .resetDuring 0x3000000000000000#64 :: [] ∧
      pixel.mem.wf = true ∧ decode 0x3000000000000000#64 = some .apply ∧ pixel.applyError = none := by decide

/-- Just above the codes, and each code. -/
theorem witness_SetstratSelectsTheStrategy : 2 < (3#32 : Word).toNat ∧ (2#32 : Word).toNat ≤ 2 ∧ (1#32 : Word).toNat ≤ 2 ∧
    (0#32 : Word).toNat ≤ 2 := by decide

theorem witness_SetscopeSelectsTheLanes : 7 < (8#32 : Word).toNat ∧ (7#32 : Word).toNat ≤ 7 ∧ (0#32 : Word).toNat ≤ 7 := by
  decide

/-- 0, -2^-16 and 1.0 are refused; 2^-16 and the largest word are accepted. -/
theorem witness_SetbaseChecksAndWrites : (0#32 : Word).toInt ≤ 0 ∧ (0xFFFFFFFF#32 : Word).toInt ≤ 0 ∧
    (0 < (1#32 : Word).toInt ∧ (1#32 : Word) ≠ 0x00010000#32) ∧
    (0 < (0x7FFFFFFF#32 : Word).toInt ∧ (0x7FFFFFFF#32 : Word) ≠ 0x00010000#32) := by decide

/-- -1 - 2^-16 and 1 + 2^-16 are refused, -1 and 1 accepted; `SETA` and `SETB` have the same range. -/
theorem witness_SetdeltaChecksAndWrites : (0xFFFEFFFF#32 : Word).toInt < -65536 ∧ 65536 < (0x00010001#32 : Word).toInt ∧
    (-65536 ≤ (0xFFFF0000#32 : Word).toInt ∧ (0xFFFF0000#32 : Word).toInt ≤ 65536) ∧
    (-65536 ≤ (0x00010000#32 : Word).toInt ∧ (0x00010000#32 : Word).toInt ≤ 65536) := by decide

theorem witness_SetaChecksAndWrites : (0xFFFEFFFF#32 : Word).toInt < -65536 ∧ 65536 < (0x00010001#32 : Word).toInt ∧
    (-65536 ≤ (0xFFFF0000#32 : Word).toInt ∧ (0xFFFF0000#32 : Word).toInt ≤ 65536) := by decide

theorem witness_SetbChecksAndWrites : (0x80000000#32 : Word).toInt < -65536 ∧ 65536 < (0x00010001#32 : Word).toInt ∧
    (-65536 ≤ (0x00010000#32 : Word).toInt ∧ (0x00010000#32 : Word).toInt ≤ 65536) := by decide

theorem witness_SetwinChecksAndWrites : ((0#16 : Half) = 0#16 ∨ (5#16 : Half) = 0#16) ∧
    ((5#16 : Half) = 0#16 ∨ (0#16 : Half) = 0#16) ∧ ((1#16 : Half) ≠ 0#16 ∧ (0xFFFF#16 : Half) ≠ 0#16) := by decide

theorem witness_ClampToAByte : (1 / 2 : ℝ) ≤ 509 / 2 ∧ ((-1 : Int) < 0 ∧ (255 : Int) ≤ 255 ∧ (0 : Int) ≤ 0 ∧ (254 : Int) ≤ 255 ∧ (-1 : Int) ≤ 255) ∧
    ((-1 / 2 : ℝ) < 0 ∧ (255 : ℝ) ≤ 255 ∧ (0 : ℝ) ≤ 509 / 2 ∧ (509 / 2 : ℝ) < 255) := by
  refine ⟨?_, by decide, ?_, ?_, ?_, ?_⟩ <;> norm_num

/-- The smallest and the largest legal base. -/
theorem witness_LogLutIsTheRealFormula : (0 < (1#32 : Word).toInt ∧ (1#32 : Word) ≠ 0x00010000#32) ∧
    (0 < (0x7FFFFFFF#32 : Word).toInt ∧ (0x7FFFFFFF#32 : Word) ≠ 0x00010000#32) := by decide

theorem witness_LogLutIsMonotone : 0 < (0x0000FFFF#32 : Word).toInt ∧ (0x0000FFFF#32 : Word) ≠ 0x00010000#32 ∧
    (254#8 : Byte).toNat ≤ (255#8 : Byte).toNat := by decide

theorem witness_LogLutEndPoints : 0 < (0x00010001#32 : Word).toInt ∧ (0x00010001#32 : Word) ≠ 0x00010000#32 := by decide

/-- A base just above 1 and one just below. -/
theorem witness_LogLutShape : (0 < (0x00010001#32 : Word).toInt ∧ (0x00010001#32 : Word) ≠ 0x00010000#32 ∧
      65536 < (0x00010001#32 : Word).toInt) ∧
    (0 < (0x0000FFFF#32 : Word).toInt ∧ (0x0000FFFF#32 : Word) ≠ 0x00010000#32 ∧ (0x0000FFFF#32 : Word).toInt < 65536) := by
  decide

theorem witness_LogLutIdentitySetting : (0 < (1#8 : Byte).toNat ∧ (1#8 : Byte).toNat < 255) ∧
    (0 < (254#8 : Byte).toNat ∧ (254#8 : Byte).toNat < 255) := by decide

/-- Entry 0 is negative for `a = 1`, zero for `a = b = 0`. -/
theorem witness_ConLutIsTheLinearFormula :
    (131072 * ((0#8 : Byte).toNat : Int) + (0x00010000#32 : Word).toInt * (2 * ((0#8 : Byte).toNat : Int) - 255) +
      510 * (0#32 : Word).toInt) < 0 ∧
    0 ≤ (131072 * ((0#8 : Byte).toNat : Int) + (0#32 : Word).toInt * (2 * ((0#8 : Byte).toNat : Int) - 255) +
      510 * (0#32 : Word).toInt) := by decide

theorem witness_ConLutProperties : (-65536 ≤ (0xFFFF0000#32 : Word).toInt ∧ (254#8 : Byte).toNat ≤ (255#8 : Byte).toNat) ∧
    (64#8 : Byte).toNat ≤ 64 ∧ 192 ≤ (192#8 : Byte).toNat := by decide

/-- A fresh and a stale state, the stale one under each strategy. -/
theorem witness_FreshRebuildsAStaleTable : clean.status.dirty = false ∧ State.reset.status.dirty = true ∧
    State.reset.strat = .log ∧ ({ State.reset with strat := .contrast } : State).strat = .contrast ∧
    ({ State.reset with strat := .flatField } : State).strat = .flatField := by decide

theorem witness_LutrdReadsTheTable : ∃ (table : Lut) (s : State),
    s.status.dirty = false ∧ s.lut = some table ∧ State.reset.status.dirty = true :=
  ⟨idLut, { clean with lut := some idLut }, rfl, rfl, rfl⟩

/-- The invariant holds at reset, and in a state with a fresh table. -/
theorem witness_LutrdIsNeverStale : State.reset.Inv ∧ ({ clean with lut := some (logLut 0x00020000#32 0#32) } : State).Inv :=
  ⟨⟨by decide, by decide, by decide, by decide, by decide, by decide, by unfold Status.consistent; decide,
      fun h => (by cases h), by decide, by decide⟩,
    ⟨by decide, by decide, by decide, by decide, by decide, by decide, by unfold Status.consistent; decide,
      fun _ => rfl, by decide, by decide⟩⟩

theorem witness_StaleTableIsUnobservable : State.reset.status.dirty = true := by decide

/-- A setter between two uses of a fresh table; a setter before the first use after reset; a command that is no caller. -/
theorem witness_RebuildLaziness : (∃ t u : State, clean.status.dirty = false ∧
      clean.quiet [.setdelta 0x00008000#32, .rdreg 1#8] = true ∧
      execAll [.setdelta 0x00008000#32, .rdreg 1#8] clean = .next t ∧ t.callsEnsureFresh .fresh = true ∧
      exec .fresh t = .next u) ∧
    (∃ t u : State, State.reset.quiet [.setbase 1#32] = true ∧ execAll [.setbase 1#32] State.reset = .next t ∧
      t.callsEnsureFresh (.lutrd 0#8) = true ∧ exec (.lutrd 0#8) t = .next u) ∧
    (∃ t : State, State.reset.callsEnsureFresh .clrerr = false ∧ exec .clrerr State.reset = .next t) :=
  ⟨⟨_, _, by decide, by decide, rfl, rfl, rfl⟩, ⟨_, _, by decide, rfl, rfl, rfl⟩, ⟨_, rfl, rfl⟩⟩

theorem witness_StepKeepsTheInvariant : State.reset.Inv ∧
    ∃ t : State, step State.reset = .next t := ⟨witness_LutrdIsNeverStale.1, _, rfl⟩

/-- A host write to the last byte of memory, an illegal word, a reset. -/
theorem witness_RunsNeverStop : ∀ m ∈ ({ State.reset with
    inbox := [.memWrite 0xFFFFFFFF 1#8, .command 0#64, .reset] } : State).inbox,
      m.addressable State.reset.params.memBytes = true := by
  intro m hm
  simp only [List.mem_cons, List.not_mem_nil, or_false] at hm
  rcases hm with rfl | rfl | rfl <;> decide

/-- A command that fails and one that succeeds. -/
theorem witness_ErrorsArePrecise : (∃ (t : State) (r : Response),
      step { clean with inbox := [.command 0#64] } = .next t ∧ t.responses = clean.responses ++ [r] ∧ r.status ≠ 0#8) ∧
    (∃ (t : State) (r : Response), step { clean with inbox := [.command 0x2000000000000000#64] } = .next t ∧
      t.responses = clean.responses ++ [r] ∧ r.status = 0#8 ∧ decode 0x2000000000000000#64 ≠ some .clrerr) :=
  ⟨⟨_, ⟨4#8, 0#32⟩, rfl, rfl, by decide⟩, ⟨_, ⟨0#8, 0#32⟩, rfl, rfl, rfl, by decide⟩⟩

theorem witness_RdregReadsTheRegister : 0x10 ≤ (0x10#8 : Byte).toNat ∧ 0x10 ≤ (0xFF#8 : Byte).toNat := by decide

/-- Each register is changed by the command that writes it. -/
theorem witness_RegistersHaveTheirWriters :
    (∃ t, exec (.setstrat 1#32) State.reset = .next t ∧ t.strat ≠ State.reset.strat) ∧
    (∃ t, exec (.setscope 1#32) State.reset = .next t ∧ t.scope ≠ State.reset.scope) ∧
    (∃ t, exec (.setbase 1#32) State.reset = .next t ∧ t.base ≠ State.reset.base) ∧
    (∃ t, exec (.setdelta 1#32) State.reset = .next t ∧ t.delta ≠ State.reset.delta) ∧
    (∃ t, exec (.seta 1#32) State.reset = .next t ∧ t.ca ≠ State.reset.ca) ∧
    (∃ t, exec (.setb 1#32) State.reset = .next t ∧ t.cb ≠ State.reset.cb) ∧
    (∃ t, exec (.setwin 3#16 5#16) State.reset = .next t ∧ t.win ≠ State.reset.win) ∧
    (∃ t, exec (.setdstbase 1#32) State.reset = .next t ∧ t.dstBase ≠ State.reset.dstBase) ∧
    (∃ t, exec (.setdstdim 1#16 1#16) State.reset = .next t ∧ t.dstDim ≠ State.reset.dstDim) ∧
    (∃ t, exec (.setdststride 1#32) State.reset = .next t ∧ t.dstStride ≠ State.reset.dstStride) ∧
    (∃ t, exec (.setsrcbase 1#32) State.reset = .next t ∧ t.srcBase ≠ State.reset.srcBase) ∧
    (∃ t, exec (.setsrcdim 1#16 1#16) State.reset = .next t ∧ t.srcDim ≠ State.reset.srcDim) ∧
    (∃ t, exec (.setsrcstride 1#32) State.reset = .next t ∧ t.srcStride ≠ State.reset.srcStride) ∧
    (∃ t, exec .fresh State.reset = .next t ∧ t.rbcnt ≠ State.reset.rbcnt ∧ t.lut ≠ State.reset.lut) ∧
    (∃ t, exec .apply pixel = .next t ∧ t.mem ≠ pixel.mem) ∧
    (∃ t, exec .markdirty clean = .next t ∧ clean.status.dirty = false ∧ t.status.dirty = true) ∧
    (∃ t, exec .fresh State.reset = .next t ∧ State.reset.status.dirty = true ∧ t.status.dirty = false) ∧
    (∃ t, exec .apply State.reset = .next t ∧ t.status.eDesc ≠ State.reset.status.eDesc) ∧
    (∃ t, exec .clrerr { clean with status := { clean.status with eIll := true, lastErr := 4#4 } } = .next t ∧
      t.status.lastErr ≠ 4#4) := by
  refine ⟨⟨_, rfl, by decide⟩, ⟨_, rfl, by decide⟩, ⟨_, rfl, by decide⟩, ⟨_, rfl, by decide⟩, ⟨_, rfl, by decide⟩,
    ⟨_, rfl, by decide⟩, ⟨_, rfl, by decide⟩, ⟨_, rfl, by decide⟩, ⟨_, rfl, by decide⟩, ⟨_, rfl, by decide⟩,
    ⟨_, rfl, by decide⟩, ⟨_, rfl, by decide⟩, ⟨_, rfl, by decide⟩, ⟨_, rfl, by decide, fun h => by cases h⟩,
    ⟨_, rfl, fun h => absurd (congrArg (·.read 0x100) h) (by decide +kernel)⟩, ⟨_, rfl, by decide, by decide⟩,
    ⟨_, rfl, by decide, by decide⟩, ⟨_, rfl, by decide⟩, ⟨_, rfl, by decide⟩⟩

theorem pixel_usable : pixel.dst.Usable pixel.params.memBytes := Descriptor.valid_iff_usable.1 (by decide)

/-- An unusable descriptor under LOG; unequal dimensions; equal dimensions with an unusable destination, an unusable source,
and one pixel more than the scratch memory holds. -/
theorem witness_ApplyChecksInOrder : (State.reset.strat = .log ∧ ¬ State.reset.dst.Usable State.reset.params.memBytes) ∧
    (({ inPlace .flatField with srcDim := 0x00010003#32 } : State).dstDim ≠
      ({ inPlace .flatField with srcDim := 0x00010003#32 } : State).srcDim) ∧
    ((inPlace .contrast).dstDim = (inPlace .contrast).srcDim ∧
      ¬ ({ inPlace .contrast with dstStride := 7#32 } : State).dst.Usable (2 ^ 32) ∧
      ¬ ({ inPlace .contrast with srcStride := 7#32 } : State).src.Usable (2 ^ 32) ∧
      1 < (inPlace .contrast).dst.width * (inPlace .contrast).dst.height) := by
  simp only [← Descriptor.valid_iff_usable]; decide

theorem witness_ApplyLogMapsTheScope : pixel.strat = .log ∧ pixel.dst.Usable pixel.params.memBytes ∧ pixel.mem.wf = true ∧
    0 < pixel.dst.width ∧ 0 < pixel.dst.height ∧ pixel.scope.getLsbD 2 = true ∧ ¬ pixel.InScope 0x103 := by
  refine ⟨by decide, pixel_usable, by decide, by decide, by decide, by decide, ?_⟩
  rw [State.inScope_iff]; decide

theorem inPlace_ready (st : Strategy) : (inPlace st).LocalReady ∧ (inPlace st).BuffersApart :=
  ⟨⟨rfl, rfl, Descriptor.valid_iff_usable.1 (by cases st <;> decide), Descriptor.valid_iff_usable.1 (by cases st <;> decide),
    by cases st <;> decide⟩, .inl ⟨rfl, rfl⟩⟩

theorem separate_ready (st : Strategy) : (separate st).LocalReady ∧ (separate st).BuffersApart := by
  refine ⟨⟨rfl, rfl, Descriptor.valid_iff_usable.1 (by cases st <;> decide),
    Descriptor.valid_iff_usable.1 (by cases st <;> decide), by cases st <;> decide⟩, ?_⟩
  by_contra h
  have := State.partialOverlap_iff.2 h
  revert this; cases st <;> decide

/-- In place and with buffers of their own. -/
theorem witness_ApplyFlatFieldCombines : (inPlace .flatField).strat = .flatField ∧
    ((inPlace .flatField).LocalReady ∧ (inPlace .flatField).BuffersApart) ∧
    ((separate .flatField).LocalReady ∧ (separate .flatField).BuffersApart) ∧ (inPlace .flatField).mem.wf = true ∧
    (separate .flatField).mem.wf = true ∧ 1 < (inPlace .flatField).dst.width ∧ 0 < (inPlace .flatField).dst.height ∧
    (inPlace .flatField).scope.getLsbD 2 = true :=
  ⟨rfl, inPlace_ready _, separate_ready _, by decide, by decide, by decide, by decide, by decide⟩

theorem witness_ApplyContrastCombines : (separate .contrast).strat = .contrast ∧ (separate .contrast).LocalReady ∧
    (separate .contrast).BuffersApart ∧ (separate .contrast).mem.wf = true ∧ (separate .contrast).Inv ∧
    1 < (separate .contrast).dst.width ∧
    0 < (separate .contrast).dst.height ∧ (separate .contrast).scope.getLsbD 0 = true :=
  ⟨rfl, (separate_ready _).1, (separate_ready _).2, by decide,
    ⟨by decide, by decide, by decide, by decide, by decide, by decide, by unfold Status.consistent; decide,
      fun h => (by cases h), by decide, by decide⟩, by decide, by decide, by decide⟩

/-- The destination starts at the second pixel of the source. -/
theorem witness_PartialOverlapStaysInScope : (overlapping .flatField).strat ≠ .log ∧ (overlapping .flatField).LocalReady ∧
    ¬ (overlapping .flatField).BuffersApart ∧ (overlapping .flatField).mem.wf = true ∧
    ¬ (overlapping .flatField).InScope 0x200 := by
  refine ⟨by decide, ⟨rfl, rfl, Descriptor.valid_iff_usable.1 (by decide), Descriptor.valid_iff_usable.1 (by decide), by decide⟩,
    State.partialOverlap_iff.1 (by decide), by decide, ?_⟩
  rw [State.inScope_iff]; decide

/-- The pixel's lane 0 changes. -/
theorem witness_CommandsWriteOnlyTheScope : ∃ t : State,
    ({ pixel with inbox := [.command 0x3000000000000000#64] } : State).inbox = .command 0x3000000000000000#64 :: [] ∧
    pixel.mem.wf = true ∧ step { pixel with inbox := [.command 0x3000000000000000#64] } = .next t ∧
    t.mem.read 0x100 ≠ pixel.mem.read 0x100 := ⟨_, rfl, by decide, rfl, by decide +kernel⟩

/-- A memory that differs from the pixel's at address 5, outside both footprints. -/
theorem witness_ApplyReadsOnlyTheFootprints : pixel.mem.wf = true ∧ (pixel.mem.write 5 7#8).wf = true ∧
    (∀ a, pixel.dst.covers a ∨ pixel.src.covers a → (pixel.mem.write 5 7#8).read a = pixel.mem.read a) ∧
    (pixel.mem.write 5 7#8).read 5 ≠ pixel.mem.read 5 ∧ ∃ t : State, exec .apply pixel = .next t := by
  refine ⟨by decide, by decide, fun a ha => ?_, by decide, _, rfl⟩
  rw [Memory.read_write (by decide), if_neg]
  rintro rfl
  rcases ha with h | h <;> obtain ⟨y, _, h1, _⟩ := Descriptor.covers_iff.1 h
  · exact absurd (Nat.le_trans (Nat.le_add_right 256 _) h1) (by decide)
  · exact absurd (Nat.le_trans (Nat.le_add_right 256 _) h1) (by decide)

/-- A list of the visited channel bytes in another order than the model's. -/
theorem reversed_order (s : State) : s.scopeSites.reverse.Nodup ∧ ∀ p : Site, p ∈ s.scopeSites.reverse ↔
    p.x < s.dst.width ∧ p.y < s.dst.height ∧ p.c ≤ 2 ∧ s.scope.getLsbD p.c = true := by
  refine ⟨List.nodup_reverse.2 (sites_nodup (scopeLanes_nodup _) _ _), fun p => ?_⟩
  rw [List.mem_reverse, State.mem_scopeSites]
  constructor
  · rintro ⟨hc, hy, hx⟩
    have : p.c < 3 := BitVec.lt_of_getLsbD hc
    exact ⟨hx, hy, by omega, hc⟩
  · rintro ⟨hx, hy, _, hc⟩; exact ⟨hc, hy, hx⟩

theorem witness_GlobalPassIsScheduleFree : ∃ order : List Site, pixel.mem.wf = true ∧ pixel.strat = .log ∧
    pixel.dst.Usable pixel.params.memBytes ∧ order.Nodup ∧ (∀ p : Site, p ∈ order ↔ p.x < pixel.dst.width ∧
      p.y < pixel.dst.height ∧ p.c ≤ 2 ∧ pixel.scope.getLsbD p.c = true) ∧ order.length = 3 :=
  ⟨pixel.scopeSites.reverse, by decide, rfl, pixel_usable, (reversed_order _).1, (reversed_order _).2, by decide⟩

theorem witness_LocalPassIsScheduleFree : ∃ order : List Site, (inPlace .contrast).mem.wf = true ∧
    (inPlace .contrast).strat ≠ .log ∧ (inPlace .contrast).LocalReady ∧ (inPlace .contrast).BuffersApart ∧ order.Nodup ∧
    (∀ p : Site, p ∈ order ↔ p.x < (inPlace .contrast).dst.width ∧ p.y < (inPlace .contrast).dst.height ∧ p.c ≤ 2 ∧
      (inPlace .contrast).scope.getLsbD p.c = true) ∧ order.length = 6 :=
  ⟨(inPlace .contrast).scopeSites.reverse, by decide, by decide, (inPlace_ready _).1, (inPlace_ready _).2,
    (reversed_order _).1, (reversed_order _).2, by decide⟩

/-- Lane 0 is 128 at both pixels while lane 1 is not uniform. -/
theorem witness_FlatFieldKeepsAUniformLane : (inPlace .flatField).strat = .flatField ∧ (inPlace .flatField).LocalReady ∧
    (inPlace .flatField).BuffersApart ∧ (inPlace .flatField).mem.wf = true ∧ (inPlace .flatField).scope.getLsbD 0 = true ∧
    (∀ x y, x < (inPlace .flatField).dst.width → y < (inPlace .flatField).dst.height →
      (inPlace .flatField).mem.read
        ((inPlace .flatField).src.base + y * (inPlace .flatField).src.stride + 4 * x + 0) = 0x80#8) := by
  refine ⟨rfl, (inPlace_ready _).1, (inPlace_ready _).2, by decide, by decide, fun x y hx hy => ?_⟩
  have hx' : x < 2 := hx
  have hy' : y < 1 := hy
  interval_cases y
  interval_cases x <;> decide

/-- A full lane of one pixel: the guard, the black lane and saturation have inputs of their own. -/
theorem witness_FlatFieldCombineLaws : 1 ≤ 1 ∧ 255 ≤ 255 * 1 ∧ (1#8 : Byte) ≠ 0#8 ∧
    256 * (1#8 : Byte).toNat * 1 ≤ (255#8 : Byte).toNat * 255 ∧ (254#8 : Byte).toNat ≤ (255#8 : Byte).toNat := by decide

theorem witness_KsiCombineLaws : -65536 ≤ (0xFFFF0000#32 : Word).toInt ∧ (126#8 : Byte).toNat ≤ (127#8 : Byte).toNat ∧
    (127#8 : Byte).toNat ≤ 127 := by decide

theorem witness_UnitWindowContrastIsTheTableMap : (separate .contrast).strat = .contrast ∧ (separate .contrast).LocalReady ∧
    (separate .contrast).BuffersApart ∧ (separate .contrast).mem.wf = true ∧ (separate .contrast).win = 0x00010001#32 :=
  ⟨rfl, (separate_ready _).1, (separate_ready _).2, by decide, rfl⟩

/-- A fresh identity table; the identity configuration; any usable pixel. -/
theorem witness_IdentityTableLeavesMemory :
    (∃ s : State, s.strat = .log ∧ s.dst.Usable s.params.memBytes ∧ s.mem.wf = true ∧ ∀ v : Byte, s.ensureFresh.lutByte v = v) ∧
    (∃ s : State, s.strat = .log ∧ s.base = 0x00010001#32 ∧ s.delta = 0#32 ∧ s.status.dirty = true) ∧
    (pixel.strat = .log ∧ pixel.dst.Usable pixel.params.memBytes ∧ pixel.mem.wf = true ∧ pixel.InScope 0x100) := by
  refine ⟨⟨{ pixel with status := clean.status, lut := some idLut }, rfl, pixel_usable, by decide, fun v => ?_⟩,
    ⟨{ State.reset with base := 0x00010001#32 }, by decide⟩, rfl, pixel_usable, by decide, ?_⟩
  · show idLut.entry v = v
    simp [idLut]
  · rw [State.inScope_iff]; decide

/-- A one-pixel image, and two images that agree within its frame and differ outside. -/
theorem witness_BlurMeetsItsContract : ∃ img img' : Img,
    (∀ x y, x < 1 → y < 1 → img x y 0 = 9#8) ∧ (∀ x y c, x < 1 → y < 1 → c ≤ 3 → img' x y c = img x y c) ∧
      img' 1 0 0 ≠ img 1 0 0 :=
  ⟨fun _ _ _ => 9#8, fun x _ _ => if x < 1 then 9#8 else 0#8, fun _ _ _ _ => rfl, fun x _ _ hx _ _ => if_pos hx, by decide⟩

theorem witness_LogIgnoresTheSource : pixel.strat = .log := rfl

theorem witness_FlatFieldIgnoresTheTable : (inPlace .flatField).strat = .flatField := rfl

/-- Lane 0 of the source is 128 at both pixels, in a buffer of its own. -/
theorem witness_UniformLaneContrastIsTheTableMap : (separate .contrast).strat = .contrast ∧ (separate .contrast).LocalReady ∧
    (separate .contrast).BuffersApart ∧ (separate .contrast).mem.wf = true ∧ (separate .contrast).scope.getLsbD 0 = true ∧
    (∀ x y, x < (separate .contrast).dst.width → y < (separate .contrast).dst.height →
      (separate .contrast).mem.read
        ((separate .contrast).src.base + y * (separate .contrast).src.stride + 4 * x + 0) = 0x80#8) := by
  refine ⟨rfl, (separate_ready _).1, (separate_ready _).2, by decide, by decide, fun x y hx hy => ?_⟩
  have hx' : x < 2 := hx
  have hy' : y < 1 := hy
  interval_cases y
  interval_cases x <;> decide

end Sys2Proof.Tests
end

section
/-! PROOFS. The scope section's one function of its own: the clamp to a byte (R12). -/

namespace Sys2Proof.Machine

/-! ## The clamp to a byte (R12) -/

@[simp] theorem clamp8_of_neg {v : Int} (h : v < 0) : clamp8 v = 0#8 := if_pos h

@[simp] theorem clamp8_of_ge {v : Int} (h : 255 ≤ v) : clamp8 v = 255#8 := by
  rw [clamp8, if_neg (by omega), if_pos h]

theorem clamp8_toNat_of_byte {v : Int} (h0 : 0 ≤ v) (h255 : v ≤ 255) : ((clamp8 v).toNat : Int) = v := by
  rw [clamp8_toNat, min_eq_right h255, max_eq_right h0]

/-- The clamp is `max 0 (min 255 ·)`, a composition of monotone maps. -/
theorem clamp8_toNat_mono : Monotone fun v : Int => (clamp8 v).toNat := by
  intro v w h
  have hcast : ((clamp8 v).toNat : Int) ≤ (clamp8 w).toNat := by
    rw [clamp8_toNat, clamp8_toNat]
    exact max_le_max_left 0 (min_le_min_left 255 h)
  exact Int.ofNat_le.mp hcast

/-- The floor of a real lies on the same side of the two integer bounds 0 and 255 as the real does, so the clamp of the
floor meets the clauses of R12 with the real's own bounds. -/
theorem clamp8_floor (x : ℝ) :
    (x < 0 → clamp8 ⌊x⌋ = 0#8) ∧ (255 ≤ x → clamp8 ⌊x⌋ = 255#8) ∧
      (0 ≤ x → x < 255 → ((clamp8 ⌊x⌋).toNat : Int) = ⌊x⌋) := by
  refine ⟨fun h => clamp8_of_neg ?_, fun h => clamp8_of_ge ?_, fun h0 h255 => clamp8_toNat_of_byte ?_ (le_of_lt ?_)⟩
  · exact Int.floor_lt.mpr (by exact_mod_cast h)
  · exact Int.le_floor.mpr (by exact_mod_cast h)
  · exact Int.floor_nonneg.mpr h0
  · exact Int.floor_lt.mpr (by exact_mod_cast h255)

/-- Settles O20: the integer clauses by the branches of `clamp8`, the real ones through the floor's order laws. -/
theorem clampToAByte : Obligations.ClampToAByte :=
  ⟨fun _ => ⟨clamp8_of_neg, clamp8_of_ge, clamp8_toNat_of_byte⟩,
    fun _ _ h => clamp8_toNat_mono h,
    clamp8_floor,
    fun _ _ h => clamp8_toNat_mono (Int.floor_mono h)⟩

end Sys2Proof.Machine
end

section
/-! PROOFS. The opcode map (R92 to R98): the decoder agrees with the table of rows, so a word decodes exactly when a row
accepts it, and the causes of an illegal command are read off the row's format. -/

namespace Sys2Proof

/-! ## The must-be-zero bits of a format (R93) -/

/-- Masking an `I8` operand field keeps its high bits and clears the index. -/
theorem and_i8Mask (v : Word) : v &&& Format.i8.zeroMask = highBits v ++ 0#8 := by
  have hv : highBits v ++ lowByte v = v := BitVec.extractLsb'_append_extractLsb' (w := 24) (len := 8)
  calc v &&& Format.i8.zeroMask = (highBits v ++ lowByte v) &&& (BitVec.allOnes 24 ++ 0#8) := by rw [hv]; rfl
    _ = highBits v ++ 0#8 := by rw [BitVec.and_append, BitVec.and_allOnes, BitVec.and_zero]

/-- Only `Z` and `I8` ask for zero bits: `Z` for all of `imm`, `I8` for its high 24 bits. -/
theorem and_zeroMask_eq_zero_iff (f : Format) (v : Word) :
    v &&& f.zeroMask = 0#32 ↔ (f = .z → v = 0#32) ∧ (f = .i8 → highBits v = 0#24) := by
  cases f with
  | z =>
    have hall : v &&& Format.z.zeroMask = v := BitVec.and_allOnes
    simp [hall]
  | i32 => simp [Format.zeroMask]
  | p16 => simp [Format.zeroMask]
  | i8 =>
    have happ : highBits v ++ 0#8 = 0#32 ↔ highBits v = 0#24 := BitVec.append_left_inj (s₂ := 0#24) (0#8)
    simp [and_i8Mask, happ]

/-! ## The decoder and the table of rows (R95, R96) -/

/-- No two rows share an opcode. -/
theorem row_eq_of_op_eq : ∀ r ∈ opcodeTable, ∀ r' ∈ opcodeTable, r'.op = r.op → r' = r := by decide

/-- What a row of the opcode map asks of the decoder, for every operand field. -/
def Row.Decodes (r : Row) : Prop :=
  ∀ imm : Word, if imm &&& r.format.zeroMask = 0#32 then ∃ i, decodeOp r.op imm = some i ∧ r.mnemonic = i.mnemonic
    else decodeOp r.op imm = none

theorem Row.decodes_z {m : String} {op : Byte} (i : Instr) (hm : m = i.mnemonic := by rfl)
    (hd : ∀ imm, decodeOp op imm = decodeZ imm i := by intros; rfl) : Row.Decodes ⟨m, op, .z⟩ := by
  intro imm
  simp only [and_zeroMask_eq_zero_iff, hd, decodeZ]
  split <;> simp_all

theorem Row.decodes_i8 {m : String} {op : Byte} (mk : Byte → Instr)
    (hm : ∀ b, m = (mk b).mnemonic := by intros; rfl)
    (hd : ∀ imm, decodeOp op imm = decodeI8 imm mk := by intros; rfl) : Row.Decodes ⟨m, op, .i8⟩ := by
  intro imm
  simp only [and_zeroMask_eq_zero_iff, hd, decodeI8]
  split <;> simp_all [← hm]

theorem Row.decodes_i32 {m : String} {op : Byte} (mk : Word → Instr)
    (hm : ∀ v, m = (mk v).mnemonic := by intros; rfl)
    (hd : ∀ imm, decodeOp op imm = decodeI32 imm mk := by intros; rfl) : Row.Decodes ⟨m, op, .i32⟩ := by
  intro imm
  rw [if_pos (by simp [and_zeroMask_eq_zero_iff]), hd]
  exact ⟨_, rfl, hm _⟩

theorem Row.decodes_p16 {m : String} {op : Byte} (mk : Half → Half → Instr)
    (hm : ∀ a b, m = (mk a b).mnemonic := by intros; rfl)
    (hd : ∀ imm, decodeOp op imm = decodeP16 imm mk := by intros; rfl) : Row.Decodes ⟨m, op, .p16⟩ := by
  intro imm
  rw [if_pos (by simp [and_zeroMask_eq_zero_iff]), hd]
  exact ⟨_, rfl, hm _ _⟩

open Row in
/-- The decoder treats every row's opcode as the row says: the table of R96, row by row. -/
theorem Row.decodes_of_mem : ∀ r ∈ opcodeTable, r.Decodes := by
  simp only [opcodeTable, List.forall_mem_append, List.forall_mem_cons]
  exact ⟨⟨⟨decodes_i32 .setstrat, decodes_i32 .setscope, decodes_i32 .setbase, decodes_i32 .setdelta, decodes_i32 .seta,
        decodes_i32 .setb, decodes_p16 .setwin, List.forall_mem_nil _⟩,
      ⟨decodes_i32 .setdstbase, decodes_p16 .setdstdim, decodes_i32 .setdststride, decodes_i32 .setsrcbase,
        decodes_p16 .setsrcdim, decodes_i32 .setsrcstride, List.forall_mem_nil _⟩⟩,
    ⟨decodes_z .markdirty, decodes_z .fresh, decodes_i8 .lutrd, decodes_i8 .rdreg, decodes_z .clrerr,
      decodes_z .apply, List.forall_mem_nil _⟩⟩

/-- An opcode of no row decodes to nothing. -/
theorem decodeOp_eq_none_of_unassigned {op : Byte} (h : ∀ r ∈ opcodeTable, r.op ≠ op) (imm : Word) :
    decodeOp op imm = none := by
  unfold decodeOp
  split <;> simp_all [opcodeTable]

/-- So a word with such an opcode does not decode, whatever its other fields. -/
theorem decode_eq_none_of_unassigned {w : CommandWord} (h : opField w ∉ opcodeTable.map Row.op) : decode w = none := by
  rw [decode, decodeOp_eq_none_of_unassigned fun r hr hop => h (List.mem_map.2 ⟨r, hr, hop⟩), ite_self]

/-- A word whose opcode a row has decodes unless its reserved field or the row's must-be-zero bits are not zero. -/
theorem decode_eq_none_iff_of_op {r : Row} {w : CommandWord} (hr : r ∈ opcodeTable) (hop : r.op = opField w) :
    decode w = none ↔ rsvField w ≠ 0#24 ∨ immField w &&& r.format.zeroMask ≠ 0#32 := by
  have hd := Row.decodes_of_mem r hr (immField w)
  rw [hop] at hd
  by_cases hrsv : rsvField w = 0#24
  · rw [decode, if_pos hrsv]
    split at hd
    next hz =>
      obtain ⟨i, hi, _⟩ := hd
      simp [hi, hrsv, hz]
    next hz => simp [hd, hz]
  · simp [decode, hrsv]

theorem Row.accepts_iff {r : Row} {w : CommandWord} : r.accepts w = true ↔
    opField w = r.op ∧ rsvField w = 0#24 ∧ immField w &&& r.format.zeroMask = 0#32 := by
  simp [Row.accepts, and_assoc]

/-- A word that a row accepts decodes to a command of that row. -/
theorem decode_of_accepts {r : Row} {w : CommandWord} (hr : r ∈ opcodeTable) (ha : r.accepts w = true) :
    ∃ i, decode w = some i ∧ r.mnemonic = i.mnemonic := by
  obtain ⟨hop, hrsv, himm⟩ := Row.accepts_iff.1 ha
  have hd := Row.decodes_of_mem r hr (immField w)
  rw [if_pos himm, ← hop] at hd
  rwa [decode, if_pos hrsv]

/-- The words that do not decode are the words no row accepts. -/
theorem decode_eq_none_iff {w : CommandWord} : decode w = none ↔ ∀ r ∈ opcodeTable, r.accepts w = false := by
  constructor
  · intro hn r hr
    refine Bool.eq_false_iff.2 fun ha => ?_
    obtain ⟨i, hi, _⟩ := decode_of_accepts hr ha
    simp [hn] at hi
  · intro hno
    by_cases hop : opField w ∈ opcodeTable.map Row.op
    · obtain ⟨r, hr, hop⟩ := List.mem_map.1 hop
      refine (decode_eq_none_iff_of_op hr hop).2 (not_and_or.1 fun ⟨hrsv, hz⟩ => ?_)
      exact Bool.eq_false_iff.1 (hno r hr) (Row.accepts_iff.2 ⟨hop.symm, hrsv, hz⟩)
    · exact decode_eq_none_of_unassigned hop

/-- A word is accepted by one row at most. -/
theorem Row.eq_of_accepts {r r' : Row} {w : CommandWord} (hr : r ∈ opcodeTable) (hr' : r' ∈ opcodeTable)
    (ha : r.accepts w = true) (ha' : r'.accepts w = true) : r' = r :=
  row_eq_of_op_eq r hr r' hr' ((Row.accepts_iff.1 ha').1.symm.trans (Row.accepts_iff.1 ha).1)

/-! ## The causes of R98 -/

/-- The high bits of the operand field are bits 31 to 8 of the word. -/
theorem highBits_immField (w : CommandWord) : highBits (immField w) = w.extractLsb' 8 24 := by
  apply BitVec.eq_of_getLsbD_eq; intro i hi
  simp [highBits, immField, hi]

/-- The opcodes of the formats that ask for zero bits. -/
theorem format_iff_opcode : ∀ r ∈ opcodeTable,
    (r.format = .z ↔ r.op ∈ [0x20#8, 0x21#8, 0x24#8, 0x30#8]) ∧ (r.format = .i8 ↔ r.op ∈ [0x22#8, 0x23#8]) := by decide

/-- The four causes of R98. -/
theorem decode_eq_none_iff_causes (w : CommandWord) : decode w = none ↔
    opField w ∉ opcodeTable.map Row.op ∨ rsvField w ≠ 0#24 ∨
      (opField w ∈ [0x20#8, 0x21#8, 0x24#8, 0x30#8] ∧ immField w ≠ 0#32) ∨
      (opField w ∈ [0x22#8, 0x23#8] ∧ highBits (immField w) ≠ 0#24) := by
  by_cases hop : opField w ∈ opcodeTable.map Row.op
  · obtain ⟨r, hr, hr_op⟩ := List.mem_map.1 hop
    obtain ⟨hz, hi8⟩ := format_iff_opcode r hr
    rw [hr_op] at hz hi8
    rw [decode_eq_none_iff_of_op hr hr_op, Ne, Ne, and_zeroMask_eq_zero_iff, hz, hi8]
    tauto
  · exact iff_of_true (decode_eq_none_of_unassigned hop) (.inl hop)

/-- Settles O4: by whether some row accepts the word; that it is the only one is that the opcodes differ. -/
theorem oneRowOrIllegal : Obligations.OneRowOrIllegal := by
  intro w
  by_cases h : ∃ r ∈ opcodeTable, r.accepts w = true
  · obtain ⟨r, hr, ha⟩ := h
    obtain ⟨i, hi, hm⟩ := decode_of_accepts hr ha
    exact .inr ⟨i, r, hi, hr, ha, hm, fun r' hr' ha' => Row.eq_of_accepts hr hr' ha ha'⟩
  · have hno : ∀ r ∈ opcodeTable, r.accepts w = false := fun r hr => Bool.eq_false_iff.2 fun ha => h ⟨r, hr, ha⟩
    exact .inl ⟨decode_eq_none_iff.2 hno, hno⟩

end Sys2Proof
end

section
/-! PROOFS. The port (R98, R101, R102): what an illegal command does, the one response of every command, and the run of
the pseudo-instructions. -/

namespace Sys2Proof.Machine

/-! ## Illegal commands (R98) -/

/-- The registers end at index 0x0F (R21). -/
theorem State.readReg_eq_none (s : State) {idx : Byte} (h : 0x0F < idx.toNat) : s.readReg idx = none := by
  unfold State.readReg
  split
  case h_17 => rfl
  all_goals exact absurd h (by decide)

/-- Reading a register that does not exist is an illegal command although its word decodes (R231). -/
theorem exec_rdreg_of_missing {s : State} {idx : Byte} (h : s.readReg idx = none) :
    exec (.rdreg idx) s = .next (s.raise .illegalCommand) := by
  simp only [exec, execRdreg, h]

/-- Settles O3: the causes by `decode_eq_none_iff_causes`; both illegal commands take the one way of raising an error. -/
theorem illegalCommands : Obligations.IllegalCommands := by
  refine ⟨fun w => ?_, fun w s rest hin hw => ?_, fun idx s hidx => ?_⟩
  · rw [← highBits_immField]
    exact decode_eq_none_iff_causes w
  · rw [step_command hin, execWord_none hw]
    rfl
  · exact exec_rdreg_of_missing (s.readReg_eq_none hidx)

/-! ## The one response of a command (R102) -/

/-- What R102 and R241 ask of the response `r` of a word that decodes to `o`, presented in `s` and ending in `t`. -/
structure ResponseRule (o : Option Instr) (s t : State) (r : Response) : Prop where
  /-- The status is one of the five codes. -/
  status_le : r.status.toNat ≤ 4
  /-- A failed command returns no data. -/
  data_of_failed : r.status ≠ 0#8 → r.data = 0#32
  /-- `LUTRD` succeeds and returns the table entry. -/
  lutrd : ∀ idx, o = some (.lutrd idx) → r.status = 0#8 ∧ r.data = (t.lutByte idx).setWidth 32
  /-- `RDREG`, when it succeeds, returns the register. -/
  rdreg : ∀ idx, o = some (.rdreg idx) → r.status = 0#8 → s.readReg idx = some r.data
  /-- No other word returns data. -/
  data_of_other : (∀ idx, o ≠ some (.lutrd idx)) → (∀ idx, o ≠ some (.rdreg idx)) → r.data = 0#32

/-- The codes of R241 as the response's status byte: 1 to 4. -/
theorem ErrorCode.statusByte_bounds (e : ErrorCode) :
    (BitVec.ofNat 8 e.code).toNat ≤ 4 ∧ BitVec.ofNat 8 e.code ≠ 0#8 := by
  cases e <;> decide

/-- An error's response meets the rule wherever the word is no `LUTRD`. -/
theorem responseRule_raise {o : Option Instr} (s t : State) (e : ErrorCode) (ho : ∀ idx, o ≠ some (.lutrd idx)) :
    ResponseRule o s t { status := BitVec.ofNat 8 e.code, data := 0#32 } where
  status_le := e.statusByte_bounds.1
  data_of_failed _ := rfl
  lutrd idx h := absurd h (ho idx)
  rdreg _ _ h := absurd h e.statusByte_bounds.2
  data_of_other _ _ := rfl

/-- `LUTRD` has no operand check and never raises an error (R163): its response is OK. -/
theorem exec_lutrd_ne_raise (idx : Byte) (s : State) (e : ErrorCode) : exec (.lutrd idx) s ≠ .next (s.raise e) := by
  intro h
  have hs : s.ensureFresh.respond 0#8 ((s.ensureFresh.lutByte idx).setWidth 32) = s.raise e := Host.Outcome.next.inj h
  have hr := congrArg State.responses hs
  simp only [State.respond_responses, State.ensureFresh_responses, State.raise_responses, List.append_cancel_left_eq,
    List.cons.injEq, Response.mk.injEq, and_true] at hr
  exact e.statusByte_bounds.2 hr.1.symm

/-- Every command answers one response, by the rule. -/
theorem exec_responds (i : Instr) (s : State) : ∃ (t : State) (r : Response), exec i s = .next t ∧ t.inbox = s.inbox ∧
    t.responses = s.responses ++ [r] ∧ ResponseRule (some i) s t r := by
  rcases exec_cases i s with ⟨e, h⟩ | ⟨u, d, h, -, hin, hresp, -, hlut, hreg, hdata⟩
  · refine ⟨s.raise e, _, h, rfl, rfl, responseRule_raise s _ e fun idx hi => ?_⟩
    obtain rfl := Option.some.inj hi
    exact exec_lutrd_ne_raise idx s e h
  · refine ⟨u.respond 0#8 d, _, h, hin, by rw [State.respond_responses, hresp], ?_⟩
    exact {
      status_le := Nat.zero_le _
      data_of_failed := fun hne => absurd rfl hne
      lutrd := fun idx hi => ⟨rfl, hlut idx (Option.some.inj hi)⟩
      rdreg := fun idx hi _ => hreg idx (Option.some.inj hi)
      data_of_other := fun hl hr =>
        hdata (fun idx hi => hl idx (congrArg some hi)) (fun idx hi => hr idx (congrArg some hi)) }

/-- So does every word, the illegal ones included. -/
theorem execWord_responds (w : CommandWord) (s : State) : ∃ (t : State) (r : Response), execWord w s = .next t ∧
    t.inbox = s.inbox ∧ t.responses = s.responses ++ [r] ∧ ResponseRule (decode w) s t r := by
  cases hw : decode w with
  | none =>
    exact ⟨_, _, execWord_none hw s, rfl, rfl, responseRule_raise s _ .illegalCommand fun _ => nofun⟩
  | some i =>
    rw [execWord_some hw]
    exact exec_responds i s

/-- Settles O9: the step is the word's execution with the word taken off the port, which changes no register. -/
theorem oneResponsePerCommand : Obligations.OneResponsePerCommand := by
  intro s w rest hin
  obtain ⟨t, r, hexec, hinbox, hresp, hrule⟩ := execWord_responds w { s with inbox := rest }
  exact ⟨t, r, (step_command hin).trans hexec, hinbox, hresp, hrule.status_le, hrule.data_of_failed, hrule.lutrd,
    hrule.rdreg, hrule.data_of_other⟩

/-! ## The pseudo-instructions (R101) -/

/-- Commands run one after the other: the second list starts where the first ends. -/
theorem execAll_append_of_next {is js : List Instr} {s t : State} (h : execAll is s = .next t) :
    execAll (is ++ js) s = execAll js t := by
  induction is generalizing s with
  | nil =>
    obtain rfl := Host.Outcome.next.inj h
    rfl
  | cons i is ih =>
    simp only [List.cons_append, execAll] at h ⊢
    split at h
    · exact ih h
    · cases h
    · cases h

/-- `SETDST` sets the destination descriptor and answers three times OK. -/
theorem execAll_setdst (b : Word) (w h : Half) (st : Word) (s : State) :
    execAll (Pseudo.setdst b w h st).expand s = .next { s with
      dstBase := b, dstDim := pairWord w h, dstStride := st,
      responses := s.responses ++ List.replicate 3 { status := 0#8, data := 0#32 } } := by
  simp [Pseudo.expand, execAll, exec, execSetdstbase, execSetdstdim, execSetdststride, State.done, State.respond]

/-- `SETSRC` sets the source descriptor and answers three times OK. -/
theorem execAll_setsrc (b : Word) (w h : Half) (st : Word) (s : State) :
    execAll (Pseudo.setsrc b w h st).expand s = .next { s with
      srcBase := b, srcDim := pairWord w h, srcStride := st,
      responses := s.responses ++ List.replicate 3 { status := 0#8, data := 0#32 } } := by
  simp [Pseudo.expand, execAll, exec, execSetsrcbase, execSetsrcdim, execSetsrcstride, State.done, State.respond]

/-- `SETINPLACE` is `SETDST` and then `SETSRC` of the same buffer. -/
theorem execAll_setinplace (b : Word) (w h : Half) (st : Word) (s : State) :
    execAll (Pseudo.setinplace b w h st).expand s = .next { s with
      dstBase := b, dstDim := pairWord w h, dstStride := st, srcBase := b, srcDim := pairWord w h, srcStride := st,
      responses := s.responses ++ List.replicate 6 { status := 0#8, data := 0#32 } } := by
  have happ : (Pseudo.setinplace b w h st).expand = (Pseudo.setdst b w h st).expand ++ (Pseudo.setsrc b w h st).expand :=
    rfl
  rw [happ, execAll_append_of_next (execAll_setdst b w h st s), execAll_setsrc, List.append_assoc]
  rfl

/-- Settles O59: the run by `execAll_setinplace`, the expansions by their definition. -/
theorem pseudoInstructionsExpand : Obligations.PseudoInstructionsExpand := by
  refine ⟨fun b w h st s => ?_, fun _ _ _ _ => ⟨rfl, rfl, rfl⟩, fun _ => rfl, rfl, fun _ => rfl⟩
  exact ⟨_, execAll_setinplace b w h st s, rfl, by simp [State.dst], rfl, rfl⟩

end Sys2Proof.Machine
end

section
/-! PROOFS. The configuration setters (R120 to R127): which operands each accepts, and that an accepted one is written and
marks the table dirty while any other raises ConfigurationError. -/

namespace Sys2Proof.Machine

/-! ## The operands a setter accepts -/

theorem baseLegal_iff {v : Word} : baseLegal v = true ↔ 0 < v.toInt ∧ v ≠ 0x00010000#32 := by
  simp only [baseLegal, Bool.and_eq_true, decide_eq_true_eq]

theorem unitLegal_iff {v : Word} : unitLegal v = true ↔ -65536 ≤ v.toInt ∧ v.toInt ≤ 65536 := by
  simp only [unitLegal, Bool.and_eq_true, decide_eq_true_eq]

theorem windowLegal_iff {ww wh : Half} : windowLegal ww wh = true ↔ ww ≠ 0#16 ∧ wh ≠ 0#16 := by
  simp only [windowLegal, Bool.and_eq_true, decide_eq_true_eq]

/-- A strategy is the one its own register code names (R25). -/
theorem Strategy.ofCode_word (st : Strategy) : Strategy.ofCode st.word = some st := by
  cases st <;> rfl

/-- Every code up to 2 is a strategy's. -/
theorem Strategy.exists_word_eq {v : Word} (h : v.toNat ≤ 2) : ∃ st : Strategy, st.word = v := by
  have hv : v = 0#32 ∨ v = 1#32 ∨ v = 2#32 := by bv_omega
  rcases hv with rfl | rfl | rfl
  · exact ⟨.log, rfl⟩
  · exact ⟨.flatField, rfl⟩
  · exact ⟨.contrast, rfl⟩

theorem Strategy.ofCode_eq_none {v : Word} (h : 2 < v.toNat) : Strategy.ofCode v = none := by
  have h0 : v ≠ 0#32 := by bv_omega
  have h1 : v ≠ 1#32 := by bv_omega
  have h2 : v ≠ 2#32 := by bv_omega
  rw [Strategy.ofCode, if_neg h0, if_neg h1, if_neg h2]

theorem scopeOf_of_le {v : Word} (h : v.toNat ≤ 7) : scopeOf v = some (v.setWidth 3) := if_pos h

theorem scopeOf_eq_none {v : Word} (h : 7 < v.toNat) : scopeOf v = none := if_neg (by omega)

/-- An operand up to 7 is the zero-extension of its three low bits, so `SCOPE` reads back as the operand. -/
theorem setWidth_lowBits_of_le {v : Word} (h : v.toNat ≤ 7) : (v.setWidth 3).setWidth 32 = v := by
  apply BitVec.eq_of_toNat_eq
  rw [BitVec.toNat_setWidth, BitVec.toNat_setWidth]
  omega

/-! ## What a setter does (R120) -/

/-- A command that runs the setters' shared step, with `P` its operand check, does one of the two things R120 says. -/
theorem exec_of_configure {i : Instr} {s : State} {ok : Bool} {write : State → State} {P : Prop} (hok : ok = true ↔ P)
    (hexec : exec i s = .next (s.configure ok write)) :
    (¬ P → exec i s = .next (s.raise .configuration)) ∧ (P → exec i s = .next (write s).markDirty.done) := by
  rw [← hok, hexec]
  rcases s.configure_cases ok write with ⟨h, hconf⟩ | ⟨h, hconf⟩
  · exact ⟨fun hn => absurd h hn, fun _ => by rw [hconf]⟩
  · exact ⟨fun _ => by rw [hconf], fun hp => absurd hp (by simp [h])⟩

/-- The setters of a value in `[-1, 1]` share their check, and so all they do. -/
theorem exec_of_configure_unitLegal {i : Instr} {s : State} {v : Word} {write : State → State}
    (hexec : exec i s = .next (s.configure (unitLegal v) write)) :
    (v.toInt < -65536 ∨ 65536 < v.toInt → exec i s = .next (s.raise .configuration)) ∧
    (-65536 ≤ v.toInt → v.toInt ≤ 65536 → exec i s = .next (write s).markDirty.done) := by
  obtain ⟨hrejected, haccepted⟩ := exec_of_configure unitLegal_iff hexec
  exact ⟨fun h => hrejected (by omega), fun hlo hhi => haccepted ⟨hlo, hhi⟩⟩

/-- `SETSTRAT` of a strategy's code selects that strategy. -/
theorem exec_setstrat_word (st : Strategy) (s : State) :
    exec (.setstrat st.word) s = .next ({ s with strat := st } : State).markDirty.done := by
  simp only [exec, execSetstrat, Strategy.ofCode_word, State.configure_true]

theorem exec_setstrat_of_gt {v : Word} (h : 2 < v.toNat) (s : State) :
    exec (.setstrat v) s = .next (s.raise .configuration) := by
  simp only [exec, execSetstrat, Strategy.ofCode_eq_none h]

theorem exec_setscope_of_le {v : Word} (h : v.toNat ≤ 7) (s : State) :
    exec (.setscope v) s = .next ({ s with scope := v.setWidth 3 } : State).markDirty.done := by
  simp only [exec, execSetscope, scopeOf_of_le h, State.configure_true]

theorem exec_setscope_of_gt {v : Word} (h : 7 < v.toNat) (s : State) :
    exec (.setscope v) s = .next (s.raise .configuration) := by
  simp only [exec, execSetscope, scopeOf_eq_none h]

/-! ## The seven setters -/

/-- Settles O12: the accepted codes are the strategies' own, and each selects its strategy by `exec_setstrat_word`. -/
theorem setstratSelectsTheStrategy : Obligations.SetstratSelectsTheStrategy := by
  intro v s
  refine ⟨decode_encodeFields _ v, fun h => exec_setstrat_of_gt h s, fun h => ?_, ?_, ?_, ?_, rfl, rfl, rfl⟩
  · obtain ⟨st, rfl⟩ := Strategy.exists_word_eq h
    exact ⟨st, rfl, exec_setstrat_word st s⟩
  · rintro rfl
    exact exec_setstrat_word .log s
  · rintro rfl
    exact exec_setstrat_word .flatField s
  · rintro rfl
    exact exec_setstrat_word .contrast s

/-- Settles O13: the mask is the operand's three low bits, which lose nothing of an operand up to 7. -/
theorem setscopeSelectsTheLanes : Obligations.SetscopeSelectsTheLanes := fun v s =>
  ⟨decode_encodeFields _ v, fun h => exec_setscope_of_gt h s,
    fun h => ⟨v.setWidth 3, setWidth_lowBits_of_le h, exec_setscope_of_le h s⟩⟩

/-- Settles O14: the two cases of `exec_of_configure` for the base's check. -/
theorem setbaseChecksAndWrites : Obligations.SetbaseChecksAndWrites := by
  intro v s
  obtain ⟨hrejected, haccepted⟩ := exec_of_configure baseLegal_iff (rfl : exec (.setbase v) s = _)
  exact ⟨decode_encodeFields _ v, fun h => hrejected (by rw [not_and_or]; simpa using h),
    fun hpos hone => haccepted ⟨hpos, hone⟩⟩

/-- Settles O15: `SETDELTA` is a setter of a value in `[-1, 1]`. -/
theorem setdeltaChecksAndWrites : Obligations.SetdeltaChecksAndWrites := fun v s =>
  ⟨decode_encodeFields _ v, exec_of_configure_unitLegal (rfl : exec (.setdelta v) s = _)⟩

/-- Settles O16: `SETA` is a setter of a value in `[-1, 1]`. -/
theorem setaChecksAndWrites : Obligations.SetaChecksAndWrites := fun v s =>
  ⟨decode_encodeFields _ v, exec_of_configure_unitLegal (rfl : exec (.seta v) s = _)⟩

/-- Settles O17: `SETB` is a setter of a value in `[-1, 1]`. -/
theorem setbChecksAndWrites : Obligations.SetbChecksAndWrites := fun v s =>
  ⟨decode_encodeFields _ v, exec_of_configure_unitLegal (rfl : exec (.setb v) s = _)⟩

/-- Settles O18: the operand field is the pair of the halves, and the window's check is that neither is zero. -/
theorem setwinChecksAndWrites : Obligations.SetwinChecksAndWrites := by
  intro ww wh s
  have hdecode : decode (encodeFields 0x07#8 (pairWord ww wh)) = some (.setwin ww wh) := by
    rw [decode_encodeFields]
    simp only [decodeOp, decodeP16, lowHalf_pairWord, highHalf_pairWord]
  obtain ⟨hrejected, haccepted⟩ := exec_of_configure windowLegal_iff (rfl : exec (.setwin ww wh) s = _)
  exact ⟨hdecode, fun h => hrejected (by tauto), fun hw hh => haccepted ⟨hw, hh⟩⟩

end Sys2Proof.Machine
end

section
/-! PROOFS. The buffer descriptor setters (R140 to R146): each decodes from its word, writes its operand unchecked and
leaves the table's mark as it was. -/

namespace Sys2Proof.Machine

/-- The word of a `P16` command decodes to the command of its two halves (R99). -/
theorem decode_encodeFields_pairWord {op : Byte} {mk : Half → Half → Instr}
    (hop : ∀ imm, decodeOp op imm = decodeP16 imm mk) (lo hi : Half) :
    decode (encodeFields op (pairWord lo hi)) = some (mk lo hi) := by
  rw [decode_encodeFields, hop, decodeP16, lowHalf_pairWord, highHalf_pairWord]

/-- A destination dimension register written as a pair reads back as its width and height (R24). -/
theorem State.dst_dim_of_pairWord {s : State} {w h : Half} (hdim : s.dstDim = pairWord w h) :
    s.dst.width = w.toNat ∧ s.dst.height = h.toNat := by
  simp only [State.dst, hdim, lowHalf_pairWord, highHalf_pairWord, and_self]

/-- A source dimension register written as a pair reads back as its width and height (R24). -/
theorem State.src_dim_of_pairWord {s : State} {w h : Half} (hdim : s.srcDim = pairWord w h) :
    s.src.width = w.toNat ∧ s.src.height = h.toNat := by
  simp only [State.src, hdim, lowHalf_pairWord, highHalf_pairWord, and_self]

/-- Settles O19: a setter has no check to split on, so its run is its definition; what is left is that the two words
with a pair of halves decode, and that the pair reads back as width and height. -/
theorem descriptorSettersWrite : Obligations.DescriptorSettersWrite := by
  intro v w h s
  refine ⟨⟨decode_encodeFields _ v, rfl⟩, ⟨?dstDecodes, rfl, ?dstHalves⟩, ⟨decode_encodeFields _ v, rfl⟩,
    ⟨decode_encodeFields _ v, rfl⟩, ⟨?srcDecodes, rfl, ?srcHalves⟩, ⟨decode_encodeFields _ v, rfl⟩⟩
  case dstDecodes => exact decode_encodeFields_pairWord (mk := .setdstdim) (fun _ => rfl) w h
  case dstHalves => exact State.dst_dim_of_pairWord rfl
  case srcDecodes => exact decode_encodeFields_pairWord (mk := .setsrcdim) (fun _ => rfl) w h
  case srcHalves => exact State.src_dim_of_pairWord rfl

end Sys2Proof.Machine
end

section
/-! PROOFS. The logarithmic table (R151): the model's comparison of integer powers decides whether an integer is at most
the rule's real number, so the entry it searches for is the clamp of that number's floor. -/

namespace Sys2Proof.Machine

/-! ## The real formula -/

/-- `arg_i` as a real number (R151). -/
noncomputable def logArgReal (bv i : Nat) : ℝ := (logArg bv i : ℝ) / (16711680 : Nat)

/-- The base as a real number (R151). -/
noncomputable def logBaseReal (bv : Nat) : ℝ := (bv : ℝ) / (65536 : Nat)

/-- `v_i` of R151, before the clamp, for the base `bv / 65536` and `dv = sext_32(D)`. -/
noncomputable def logValue (bv : Nat) (dv : Int) (i : Nat) : ℝ :=
  255 * (Real.log (logArgReal bv i) / Real.log (logBaseReal bv)) + (dv : ℝ) / 512

theorem logArg_pos {bv i : Nat} (hbv : 0 < bv) (hi : i ≤ 255) : 0 < logArg bv i := by
  rcases Nat.lt_or_eq_of_le hi with hlt | rfl
  · exact Nat.add_pos_left (by omega) _
  · exact Nat.add_pos_right _ (by positivity)

theorem logArg_cast {bv i : Nat} (hi : i ≤ 255) : (logArg bv i : ℝ) = 16711680 + ((bv : ℝ) - 65536) * i := by
  rw [logArg]
  push_cast [Nat.cast_sub hi]
  ring

theorem logArgReal_pos {bv i : Nat} (hbv : 0 < bv) (hi : i ≤ 255) : 0 < logArgReal bv i :=
  div_pos (Nat.cast_pos.mpr (logArg_pos hbv hi)) (by norm_num)

theorem one_lt_logBaseReal {bv : Nat} (h : 65536 < bv) : 1 < logBaseReal bv :=
  (one_lt_div (by norm_num)).mpr (Nat.cast_lt.mpr h)

theorem logBaseReal_lt_one {bv : Nat} (h : bv < 65536) : logBaseReal bv < 1 :=
  (div_lt_one (by norm_num)).mpr (Nat.cast_lt.mpr h)

/-- `arg_i` runs from 1 to the base, so it lies on the base's side of 1 and the two logarithms have one sign. -/
theorem log_ratio_nonneg {bv i : Nat} (hbv : 0 < bv) (hi : i ≤ 255) :
    0 ≤ Real.log (logArgReal bv i) / Real.log (logBaseReal bv) := by
  have hi0 : (0 : ℝ) ≤ i := Nat.cast_nonneg i
  rcases le_total 65536 bv with h | h
  · have hb : (65536 : ℝ) ≤ bv := by exact_mod_cast h
    refine div_nonneg (Real.log_nonneg ?_) (Real.log_nonneg ?_)
    · rw [logArgReal, logArg_cast hi, one_le_div (by norm_num)]
      push_cast
      nlinarith
    · rw [logBaseReal, one_le_div (by norm_num)]
      exact hb
  · have hb : (bv : ℝ) ≤ 65536 := by exact_mod_cast h
    have hpos : 0 < logBaseReal bv := div_pos (Nat.cast_pos.mpr hbv) (by norm_num)
    refine div_nonneg_of_nonpos (Real.log_nonpos (logArgReal_pos hbv hi).le ?_) (Real.log_nonpos hpos.le ?_)
    · rw [logArgReal, logArg_cast hi, div_le_one (by norm_num)]
      push_cast
      nlinarith
    · rw [logBaseReal, div_le_one (by norm_num)]
      exact hb

/-! ## The threshold test -/

/-- The model's comparison is one of powers of fractions. -/
theorem powersLe_iff_div_pow_le {a b c d p q : Nat} (hb : 0 < b) (hd : 0 < d) :
    powersLe a p d q c q b p = true ↔ ((a : ℝ) / b) ^ p ≤ ((c : ℝ) / d) ^ q := by
  have hb' : (0 : ℝ) < (b : ℝ) ^ p := by positivity
  have hd' : (0 : ℝ) < (d : ℝ) ^ q := by positivity
  rw [powersLe_iff, div_pow, div_pow, div_le_div_iff₀ hb' hd']
  exact_mod_cast Iff.rfl

/-- A bound on a ratio of logarithms is a comparison of powers, one way round for a base above 1. -/
theorem le_mul_log_ratio_iff_of_one_lt {x y : ℝ} (hx : 0 < x) (hy : 1 < y) (p q : Nat) :
    (q : ℝ) ≤ p * (Real.log x / Real.log y) ↔ y ^ q ≤ x ^ p := by
  have hy0 : 0 < y := zero_lt_one.trans hy
  rw [← mul_div_assoc, le_div_iff₀ (Real.log_pos hy), ← Real.log_pow, ← Real.log_pow,
    Real.log_le_log_iff (pow_pos hy0 q) (pow_pos hx p)]

/-- And the other way round for a base below 1, whose logarithm is negative. -/
theorem le_mul_log_ratio_iff_of_lt_one {x y : ℝ} (hx : 0 < x) (hy0 : 0 < y) (hy : y < 1) (p q : Nat) :
    (q : ℝ) ≤ p * (Real.log x / Real.log y) ↔ x ^ p ≤ y ^ q := by
  rw [← mul_div_assoc, le_div_iff_of_neg (Real.log_neg hy0 hy), ← Real.log_pow, ← Real.log_pow,
    Real.log_le_log_iff (pow_pos hx p) (pow_pos hy0 q)]

/-- `k ≤ v_i` as a bound on the ratio of the logarithms alone. -/
theorem le_logValue_iff {bv : Nat} {dv : Int} {i k : Nat} : (k : ℝ) ≤ logValue bv dv i ↔
    ((512 * (k : Int) - dv : Int) : ℝ) ≤ 130560 * (Real.log (logArgReal bv i) / Real.log (logBaseReal bv)) := by
  rw [logValue]
  push_cast
  constructor <;> intro h <;> linarith

/-- Cancelling a common factor of the two sides' numbers leaves the bound as it is. -/
theorem cast_le_mul_iff_div_gcd {m n : Nat} (hm : 0 < m) (x : ℝ) :
    (n : ℝ) ≤ m * x ↔ ((n / Nat.gcd m n : Nat) : ℝ) ≤ ((m / Nat.gcd m n : Nat) : ℝ) * x := by
  have hg : (0 : ℝ) < (Nat.gcd m n : ℝ) := Nat.cast_pos.mpr (Nat.gcd_pos_of_pos_left n hm)
  rw [Nat.cast_div (Nat.gcd_dvd_right m n) hg.ne', Nat.cast_div (Nat.gcd_dvd_left m n) hg.ne', div_mul_eq_mul_div,
    div_le_div_iff_of_pos_right hg]

/-- The test of R153 is exact: the threshold `k` is reached when `k ≤ v_i`. -/
theorem logReaches_iff {bv : Nat} (hbv : 0 < bv) (hone : bv ≠ 65536) (dv : Int) {i : Nat} (hi : i ≤ 255) (k : Nat) :
    logReaches bv dv i k = true ↔ (k : ℝ) ≤ logValue bv dv i := by
  rw [le_logValue_iff, logReaches]
  rcases le_or_gt (512 * (k : Int) - dv) 0 with hm | hm
  · have hle : ((512 * (k : Int) - dv : Int) : ℝ) ≤ 0 := by exact_mod_cast hm
    rw [if_pos hm]
    exact iff_of_true rfl (hle.trans (mul_nonneg (by norm_num) (log_ratio_nonneg hbv hi)))
  · have hx : 0 < logArgReal bv i := logArgReal_pos hbv hi
    have hcast : ((512 * (k : Int) - dv : Int) : ℝ) = ((512 * (k : Int) - dv).toNat : ℝ) := by
      exact_mod_cast (Int.toNat_of_nonneg hm.le).symm
    have hgcd := cast_le_mul_iff_div_gcd (m := 130560) (n := (512 * (k : Int) - dv).toNat) (by norm_num)
      (Real.log (logArgReal bv i) / Real.log (logBaseReal bv))
    rw [Nat.cast_ofNat] at hgcd
    rw [if_neg (not_le.mpr hm), hcast, hgcd]
    split
    case isTrue h =>
      rw [le_mul_log_ratio_iff_of_one_lt hx (one_lt_logBaseReal h)]
      exact powersLe_iff_div_pow_le (by norm_num) (by norm_num)
    case isFalse h =>
      have hy : 0 < logBaseReal bv := div_pos (Nat.cast_pos.mpr hbv) (by norm_num)
      rw [le_mul_log_ratio_iff_of_lt_one hx hy (logBaseReal_lt_one (by omega))]
      exact powersLe_iff_div_pow_le (by norm_num) (by norm_num)

/-! ## The entry -/

/-- A search by an exact threshold test finds the clamp of the floor (R12): both are the byte below which exactly the
thresholds reached lie. -/
theorem clampSearch_eq_clamp8_floor {f : Nat → Bool} {v : ℝ} (hf : ∀ k, f k = true ↔ (k : ℝ) ≤ v) :
    clampSearch f = clamp8 ⌊v⌋ := by
  have hspec := clampSearch_spec (f := f) fun j k _ hjk hk =>
    (hf j).mpr ((Nat.cast_le.mpr hjk).trans ((hf k).mp hk))
  have hfloor (k : Nat) : f k = true ↔ (k : Int) ≤ ⌊v⌋ := by
    rw [hf, Int.le_floor, Int.cast_natCast]
  have hsearch (k : Nat) (h1 : 1 ≤ k) (h255 : k ≤ 255) : (k : Int) ≤ ⌊v⌋ ↔ k ≤ (clampSearch f).toNat :=
    (hfloor k).symm.trans (hspec k h1 h255)
  have hlt := (clampSearch f).isLt
  have hclamp := clamp8_toNat ⌊v⌋
  apply BitVec.eq_of_toNat_eq
  have hs := hsearch (clampSearch f).toNat
  have hc := hsearch (clamp8 ⌊v⌋).toNat
  omega

/-- A legal base is a positive number of 65536ths other than 65536. -/
theorem toNat_of_baseLegal {b : Word} (hpos : 0 < b.toInt) (hone : b ≠ 0x00010000#32) :
    b.toInt = b.toNat ∧ 0 < b.toNat ∧ b.toNat ≠ 65536 := by
  have hcast : b.toInt = b.toNat := BitVec.toInt_eq_toNat_of_lt (by rw [BitVec.toInt_eq_toNat_cond] at hpos; omega)
  exact ⟨hcast, by omega, fun h => hone (BitVec.eq_of_toNat_eq h)⟩

theorem logEntry_eq_clamp8_floor {b d : Word} {i : Nat} (hpos : 0 < b.toInt) (hone : b ≠ 0x00010000#32) (hi : i ≤ 255) :
    logEntry b d i = clamp8 ⌊logValue b.toNat d.toInt i⌋ := by
  obtain ⟨-, hpos', hone'⟩ := toNat_of_baseLegal hpos hone
  rw [logEntry, if_pos (baseLegal_iff.mpr ⟨hpos, hone⟩)]
  exact clampSearch_eq_clamp8_floor (logReaches_iff hpos' hone' d.toInt hi)

/-- Settles O21: the entry is the clamp of `logValue`'s floor, and `logValue` is the rule's formula. -/
theorem logLutIsTheRealFormula : Obligations.LogLutIsTheRealFormula := by
  intro b d i hpos hone
  have hi : i.toNat ≤ 255 := Nat.le_of_lt_succ i.isLt
  obtain ⟨hcast, -, -⟩ := toNat_of_baseLegal hpos hone
  rw [logLut, Lut.entry_ofFn, logEntry_eq_clamp8_floor hpos hone hi, logValue, logArgReal, logArg_cast hi, logBaseReal,
    hcast, mul_div_assoc]
  norm_num

end Sys2Proof.Machine
end

section
/-! PROOFS. The contrast table (R154, R155): every entry is the clamp of a line in exact integers, and its properties are
those of the line and of the clamp. -/

namespace Sys2Proof.Machine

/-! ## The line (R154) -/

theorem conLut_entry (a bo : Word) (i : Byte) : (conLut a bo).entry i = clamp8 (conNum a bo i.toNat / 131072) :=
  Lut.entry_ofFn _ i

/-- The line's slope is `131072 * (1 + a)`. -/
theorem conNum_succ_sub (a bo : Word) (i : Nat) : conNum a bo (i + 1) - conNum a bo i = 131072 + 2 * a.toInt := by
  simp only [conNum]
  push_cast
  ring

/-- From `a = -1` up the line does not fall. -/
theorem conNum_mono {a : Word} (ha : -65536 ≤ a.toInt) (bo : Word) : Monotone (conNum a bo) :=
  monotone_nat_of_le_succ fun i => by
    have hslope := conNum_succ_sub a bo i
    omega

/-- Settles O26: the clamp of the line's floor, clause by clause, and the rational identity by clearing denominators. -/
theorem conLutIsTheLinearFormula : Obligations.ConLutIsTheLinearFormula := by
  intro a bo i num
  have hentry : (conLut a bo).entry i = clamp8 (num / 131072) := conLut_entry a bo i
  refine ⟨fun hneg => ?_, fun hpos => ?_, ?_⟩
  · rw [hentry, clamp8_of_neg (by omega)]
  · rw [hentry, clamp8_toNat, max_eq_right (by omega)]
  · simp only [num]
    push_cast
    ring

/-! ## Properties (R155) -/

theorem clamp8_of_nonpos {v : Int} (h : v ≤ 0) : clamp8 v = 0#8 := by
  rcases Int.lt_or_eq_of_le h with hneg | rfl
  · exact clamp8_of_neg hneg
  · rfl

/-- Without contrast the line has slope 1 and only the shift is left. -/
theorem conNum_zero_contrast (bo : Word) (i : Nat) : conNum 0#32 bo i = 2 * (65536 * (i : Int) + 255 * bo.toInt) := by
  have ha : (0#32 : Word).toInt = 0 := by decide
  rw [conNum, ha]
  ring

/-- K4: `a = 0` shifts the identity by `255 * b`. -/
theorem conLut_zero_contrast_entry (bo : Word) (i : Byte) :
    (conLut 0#32 bo).entry i = clamp8 ((65536 * (i.toNat : Int) + 255 * bo.toInt) / 65536) := by
  rw [conLut_entry, conNum_zero_contrast]
  congr 1
  omega

/-- K3: `a = b = 0` is the identity. -/
theorem conLut_zero_zero_entry (i : Byte) : (conLut 0#32 0#32).entry i = i := by
  have hb : (0#32 : Word).toInt = 0 := by decide
  have hi := i.isLt
  have hline : (65536 * (i.toNat : Int) + 255 * 0) / 65536 = i.toNat := by omega
  rw [conLut_zero_contrast_entry, hb, hline]
  apply BitVec.eq_of_toNat_eq
  exact_mod_cast clamp8_toNat_of_byte (v := (i.toNat : Int)) (by omega) (by omega)

/-- K5: at `a = -1` the line is constant at the mid-point 127.5. -/
theorem conLut_min_contrast_entry (i : Byte) : (conLut 0xFFFF0000#32 0#32).entry i = 127#8 := by
  have ha : (0xFFFF0000#32 : Word).toInt = -65536 := by decide
  have hb : (0#32 : Word).toInt = 0 := by decide
  have hline : conNum 0xFFFF0000#32 0#32 i.toNat / 131072 = 127 := by
    rw [conNum, ha, hb]
    omega
  rw [conLut_entry, hline]
  decide

/-- K5: `b = 1` saturates every entry. -/
theorem conLut_max_brightness_entry (i : Byte) : (conLut 0#32 0x00010000#32).entry i = 255#8 := by
  have hb : (0x00010000#32 : Word).toInt = 65536 := by decide
  rw [conLut_zero_contrast_entry, hb]
  exact clamp8_of_ge (by omega)

/-- K5: `b = -1` leaves only 0: the line reaches 0 at `i = 255`. -/
theorem conLut_min_brightness_entry (i : Byte) : (conLut 0#32 0xFFFF0000#32).entry i = 0#8 := by
  have hb : (0xFFFF0000#32 : Word).toInt = -65536 := by decide
  have hi := i.isLt
  rw [conLut_zero_contrast_entry, hb]
  exact clamp8_of_nonpos (by omega)

/-- K5: `a = 1` doubles the slope about the mid-point. -/
theorem conLut_max_contrast_entry (i : Byte) :
    (conLut 0x00010000#32 0#32).entry i = clamp8 ((4 * (i.toNat : Int) - 255) / 2) := by
  have ha : (0x00010000#32 : Word).toInt = 65536 := by decide
  have hb : (0#32 : Word).toInt = 0 := by decide
  have hline : conNum 0x00010000#32 0#32 i.toNat / 131072 = (4 * (i.toNat : Int) - 255) / 2 := by
    rw [conNum, ha, hb]
    omega
  rw [conLut_entry, hline]

/-- The slope vanishes at `a = -1` alone. -/
theorem conSlope_eq_zero_iff (a : Word) : 131072 + 2 * a.toInt = 0 ↔ a = 0xFFFF0000#32 := by
  have hmin : (0xFFFF0000#32 : Word).toInt = -65536 := by decide
  rw [← BitVec.toInt_inj, hmin]
  omega

/-- Settles O27: K1 is the width of a byte, K2 the line's slope under the monotone clamp, K3 to K5 setting by setting. -/
theorem conLutProperties : Obligations.ConLutProperties := by
  refine ⟨fun a bo i => Nat.le_of_lt_succ (BitVec.isLt _), fun a bo i ha => ?slope, fun a bo i j ha hij => ?monotone,
    conLut_zero_zero_entry, conLut_zero_contrast_entry, fun i => ⟨conLut_min_contrast_entry i,
      conLut_max_brightness_entry i, conLut_min_brightness_entry i, conLut_max_contrast_entry i⟩, fun i => ?ends⟩
  case slope => exact ⟨conNum_succ_sub a bo i, by omega, conSlope_eq_zero_iff a⟩
  case monotone =>
    rw [conLut_entry, conLut_entry]
    exact clamp8_toNat_mono (Int.ediv_le_ediv (by norm_num) (conNum_mono ha bo hij))
  case ends =>
    rw [conLut_max_contrast_entry]
    exact ⟨fun hlow => clamp8_of_nonpos (by omega), fun hhigh => clamp8_of_ge (by omega)⟩

end Sys2Proof.Machine
end

section
/-! PROOFS. The table commands (R160 to R163): what `MARKDIRTY`, `FRESH` and `LUTRD` do, each by the two cases of the
rebuild step. -/

namespace Sys2Proof.Machine

/-- A fresh table is not rebuilt. -/
theorem State.ensureFresh_of_fresh {s : State} (h : s.status.dirty = false) : s.ensureFresh = s :=
  if_neg (by simp [h])

/-- A stale one is, by the three assignments of R160. -/
theorem State.ensureFresh_of_dirty {s : State} (h : s.status.dirty = true) : s.ensureFresh =
    { s with status := s.status.clearDirty, lut := some (lutGen s.strat s.base s.delta s.ca s.cb),
             rbcnt := s.rbcnt + 1#32 } :=
  if_pos h

theorem exec_fresh (s : State) : exec .fresh s = .next s.ensureFresh.done := rfl

theorem exec_lutrd (idx : Byte) (s : State) :
    exec (.lutrd idx) s = .next (s.ensureFresh.respond 0#8 ((s.ensureFresh.lutByte idx).setWidth 32)) := rfl

/-- A table with contents answers its entry. -/
theorem State.lutByte_of_some {s : State} {table : Lut} (h : s.lut = some table) (idx : Byte) :
    s.lutByte idx = table.entry idx := by
  simp only [State.lutByte, h]

theorem idLut_entry (i : Byte) : idLut.entry i = i := by
  rw [idLut, Lut.entry_ofFn, BitVec.ofNat_toNat, BitVec.setWidth_eq]

/-- Settles O28: the command is its definition. -/
theorem markdirtySetsTheFlag : Obligations.MarkdirtySetsTheFlag := fun _ => ⟨by decide, rfl⟩

/-- Settles O29: the two cases of the rebuild step, the new table strategy by strategy. -/
theorem freshRebuildsAStaleTable : Obligations.FreshRebuildsAStaleTable := by
  refine fun s => ⟨by decide, fun hfresh => ?_, fun hstale =>
    ⟨lutGen s.strat s.base s.delta s.ca s.cb, fun hs => ?_, fun hs => ?_, fun hs i => ?_, ?_⟩⟩
  · rw [exec_fresh, State.ensureFresh_of_fresh hfresh]
    rfl
  · rw [hs, lutGen]
  · rw [hs, lutGen]
  · rw [hs, lutGen, idLut_entry]
  · rw [exec_fresh, State.ensureFresh_of_dirty hstale]
    rfl

/-- The word of an `I8` command with its index decodes to the command (R93). -/
theorem decode_encodeFields_indexWord {op : Byte} {mk : Byte → Instr} (hop : ∀ imm, decodeOp op imm = decodeI8 imm mk)
    (idx : Byte) : decode (encodeFields op (indexWord idx)) = some (mk idx) := by
  rw [decode_encodeFields, hop, decodeI8, if_pos (highBits_indexWord idx), lowByte_indexWord]

/-- Settles O30: the two cases of the rebuild step; either way the data is the entry of the table it leaves. -/
theorem lutrdReadsTheTable : Obligations.LutrdReadsTheTable := by
  refine fun idx s => ⟨decode_encodeFields_indexWord (mk := .lutrd) (fun _ => rfl) idx, fun table hfresh hlut => ?_,
    fun hstale => ?_, ⟨_, exec_lutrd idx s⟩⟩
  · rw [exec_lutrd, State.ensureFresh_of_fresh hfresh, State.lutByte_of_some hlut]
    rfl
  · rw [exec_lutrd, State.ensureFresh_of_dirty hstale, State.lutByte_of_some rfl]
    rfl

end Sys2Proof.Machine
end

section
/-! PROOFS. Rebuild laziness (R164): a command that is no EnsureFresh caller keeps the table and its counter and can only
mark it dirty, so a run of such commands does no more, and the caller after it rebuilds when the run marked. -/

namespace Sys2Proof.Machine

/-! ## Commands that are no EnsureFresh callers -/

/-- `t` has the table and the counter of `s`, and its DIRTY is that of `s` or set by `marked`. -/
structure State.KeepsTable (s t : State) (marked : Bool) : Prop where
  /-- The table is kept. -/
  lut : t.lut = s.lut
  /-- No rebuild is counted. -/
  rbcnt : t.rbcnt = s.rbcnt
  /-- DIRTY is set by marking only. -/
  dirty : t.status.dirty = (s.status.dirty || marked)

theorem State.KeepsTable.trans {s t u : State} {m n : Bool} (h : s.KeepsTable t m) (h' : t.KeepsTable u n) :
    s.KeepsTable u (m || n) where
  lut := h'.lut.trans h.lut
  rbcnt := h'.rbcnt.trans h.rbcnt
  dirty := by rw [h'.dirty, h.dirty, Bool.or_assoc]

theorem State.keepsTable_of_eq {s t : State} (hlut : t.lut = s.lut) (hrbcnt : t.rbcnt = s.rbcnt)
    (hdirty : t.status.dirty = s.status.dirty) : s.KeepsTable t false :=
  ⟨hlut, hrbcnt, by rw [hdirty, Bool.or_false]⟩

/-- An error leaves the table alone (R246). -/
theorem State.keepsTable_raise (s : State) (e : ErrorCode) : s.KeepsTable (s.raise e) false :=
  State.keepsTable_of_eq rfl rfl (Status.record_dirty _ e)

/-- The setters' shared step marks the table dirty exactly when it accepts the operand (R120). -/
theorem State.keepsTable_configure {s : State} {ok : Bool} {write : State → State} {P : Prop} [Decidable P]
    (hok : ok = true ↔ P) (hlut : (write s).lut = s.lut) (hrbcnt : (write s).rbcnt = s.rbcnt) :
    s.KeepsTable (s.configure ok write) (decide P) := by
  have hP : decide P = ok := by rw [Bool.eq_iff_iff, decide_eq_true_iff, hok]
  rw [hP]
  rcases s.configure_cases ok write with ⟨rfl, hconf⟩ | ⟨rfl, hconf⟩
  · rw [hconf]
    exact ⟨hlut, hrbcnt, (Bool.or_true _).symm⟩
  · rw [hconf]
    exact s.keepsTable_raise .configuration

theorem exec_setstrat_keepsTable (v : Word) (s : State) :
    ∃ t, exec (.setstrat v) s = .next t ∧ s.KeepsTable t (marksDirty (.setstrat v)) := by
  rcases le_or_gt v.toNat 2 with hv | hv
  · obtain ⟨st, rfl⟩ := Strategy.exists_word_eq hv
    exact ⟨_, exec_setstrat_word st s, rfl, rfl, by simp [marksDirty, hv]⟩
  · refine ⟨_, exec_setstrat_of_gt hv s, ?_⟩
    rw [marksDirty, decide_eq_false (by omega)]
    exact s.keepsTable_raise _

theorem exec_setscope_keepsTable (v : Word) (s : State) :
    ∃ t, exec (.setscope v) s = .next t ∧ s.KeepsTable t (marksDirty (.setscope v)) := by
  rcases le_or_gt v.toNat 7 with hv | hv
  · exact ⟨_, exec_setscope_of_le hv s, rfl, rfl, by simp [marksDirty, hv]⟩
  · refine ⟨_, exec_setscope_of_gt hv s, ?_⟩
    rw [marksDirty, decide_eq_false (by omega)]
    exact s.keepsTable_raise _

theorem exec_rdreg_keepsTable (idx : Byte) (s : State) :
    ∃ t, exec (.rdreg idx) s = .next t ∧ s.KeepsTable t false := by
  cases hreg : s.readReg idx with
  | none => exact ⟨_, exec_rdreg_of_missing hreg, s.keepsTable_raise _⟩
  | some v => exact ⟨s.respond 0#8 v, by simp only [exec, execRdreg, hreg], State.keepsTable_of_eq rfl rfl rfl⟩

/-- An `APPLY` that is no caller fails, or runs under FLATFIELD, which has no use of the table. -/
theorem exec_apply_keepsTable {s : State} (h : s.callsEnsureFresh .apply = false) :
    ∃ t, exec .apply s = .next t ∧ s.KeepsTable t false := by
  rcases execApply_cases s with ⟨e, -, hexec⟩ | ⟨hnone, hexec⟩
  · exact ⟨_, hexec, s.keepsTable_raise e⟩
  · have hflat : s.strat = .flatField := by simpa [State.callsEnsureFresh, hnone] using h
    obtain ⟨f, hpass⟩ := s.applyPass_eq
    rw [if_pos hflat] at hpass
    refine ⟨_, hexec, State.keepsTable_of_eq ?_ ?_ ?_⟩ <;> rw [hpass] <;> rfl

/-- R164 (4) and R120: all that a command that is no EnsureFresh caller does to the table, its counter and DIRTY. -/
theorem exec_keepsTable {i : Instr} {s : State} (h : s.callsEnsureFresh i = false) :
    ∃ t, exec i s = .next t ∧ s.KeepsTable t (marksDirty i) := by
  cases i with
  | setstrat v => exact exec_setstrat_keepsTable v s
  | setscope v => exact exec_setscope_keepsTable v s
  | setbase v => exact ⟨_, rfl, State.keepsTable_configure baseLegal_iff rfl rfl⟩
  | setdelta v => exact ⟨_, rfl, State.keepsTable_configure unitLegal_iff rfl rfl⟩
  | seta v => exact ⟨_, rfl, State.keepsTable_configure unitLegal_iff rfl rfl⟩
  | setb v => exact ⟨_, rfl, State.keepsTable_configure unitLegal_iff rfl rfl⟩
  | setwin ww wh => exact ⟨_, rfl, State.keepsTable_configure windowLegal_iff rfl rfl⟩
  | setdstbase v => exact ⟨_, rfl, State.keepsTable_of_eq rfl rfl rfl⟩
  | setdstdim w h => exact ⟨_, rfl, State.keepsTable_of_eq rfl rfl rfl⟩
  | setdststride v => exact ⟨_, rfl, State.keepsTable_of_eq rfl rfl rfl⟩
  | setsrcbase v => exact ⟨_, rfl, State.keepsTable_of_eq rfl rfl rfl⟩
  | setsrcdim w h => exact ⟨_, rfl, State.keepsTable_of_eq rfl rfl rfl⟩
  | setsrcstride v => exact ⟨_, rfl, State.keepsTable_of_eq rfl rfl rfl⟩
  | markdirty => exact ⟨_, rfl, rfl, rfl, (Bool.or_true _).symm⟩
  | fresh => exact absurd h (by simp [State.callsEnsureFresh])
  | lutrd idx => exact absurd h (by simp [State.callsEnsureFresh])
  | rdreg idx => exact exec_rdreg_keepsTable idx s
  | clrerr => exact ⟨_, rfl, State.keepsTable_of_eq rfl rfl rfl⟩
  | apply => exact exec_apply_keepsTable h

theorem exec_next_keepsTable {i : Instr} {s t : State} (h : s.callsEnsureFresh i = false) (hexec : exec i s = .next t) :
    s.KeepsTable t (marksDirty i) := by
  obtain ⟨t', hexec', hkeeps⟩ := exec_keepsTable h
  obtain rfl := Host.Outcome.next.inj (hexec.symm.trans hexec')
  exact hkeeps

/-! ## Runs without a caller, and the caller after them -/

/-- A run goes on from the next state of its first command. -/
theorem execAll_cons_of_next {i : Instr} {s t : State} (h : exec i s = .next t) (rest : List Instr) :
    execAll (i :: rest) s = execAll rest t := by
  simp only [execAll, h]

theorem State.quiet_cons_of_next {i : Instr} {s t : State} (h : exec i s = .next t) (rest : List Instr) :
    s.quiet (i :: rest) = (!s.callsEnsureFresh i && t.quiet rest) := by
  simp only [State.quiet, h]

/-- A run of commands none of which is a caller marks the table dirty when one of them does, and no more. -/
theorem execAll_keepsTable {is : List Instr} {s t : State} (hquiet : s.quiet is = true)
    (hrun : execAll is s = .next t) : s.KeepsTable t (is.any marksDirty) := by
  induction is generalizing s with
  | nil =>
    obtain rfl := Host.Outcome.next.inj hrun
    exact State.keepsTable_of_eq rfl rfl rfl
  | cons i is ih =>
    obtain ⟨u, r, hexec, -⟩ := exec_responds i s
    rw [State.quiet_cons_of_next hexec, Bool.and_eq_true, Bool.not_eq_true'] at hquiet
    rw [execAll_cons_of_next hexec] at hrun
    obtain ⟨hcaller, hrest⟩ := hquiet
    exact (exec_next_keepsTable hcaller hexec).trans (ih hrest hrun)

/-- Under a strategy with a table the pass leaves the rebuild step's table registers. -/
theorem State.applyPass_table {s : State} (h : s.strat ≠ .flatField) :
    s.applyPass.rbcnt = s.ensureFresh.rbcnt ∧ s.applyPass.status = s.ensureFresh.status := by
  obtain ⟨f, hpass⟩ := s.applyPass_eq
  rw [if_neg h] at hpass
  rw [hpass]
  exact ⟨rfl, rfl⟩

/-- A caller runs the rebuild step: it counts a rebuild when the table was stale, and leaves it fresh. -/
theorem exec_caller {i : Instr} {s t : State} (h : s.callsEnsureFresh i = true) (hexec : exec i s = .next t) :
    t.rbcnt = s.ensureFresh.rbcnt ∧ t.status.dirty = false := by
  cases i with
  | fresh =>
    obtain rfl := Host.Outcome.next.inj hexec
    exact ⟨rfl, s.ensureFresh_dirty⟩
  | lutrd idx =>
    obtain rfl := Host.Outcome.next.inj hexec
    exact ⟨rfl, s.ensureFresh_dirty⟩
  | apply =>
    obtain ⟨hstrat, hnone⟩ : s.strat ≠ .flatField ∧ s.applyError = none := of_decide_eq_true h
    obtain ⟨hrbcnt, hstatus⟩ := State.applyPass_table hstrat
    obtain rfl := Host.Outcome.next.inj ((exec_apply_of_none hnone).symm.trans hexec)
    exact ⟨hrbcnt, (congrArg Status.dirty hstatus).trans s.ensureFresh_dirty⟩
  | _ => exact absurd h Bool.false_ne_true

theorem State.ensureFresh_rbcnt (s : State) :
    s.ensureFresh.rbcnt = if s.status.dirty then s.rbcnt + 1#32 else s.rbcnt := by
  rcases s.ensureFresh_cases with ⟨h, e⟩ | ⟨h, e⟩ <;> rw [e, h] <;> rfl

/-- Settles O33: a quiet run decides by its marks alone whether the caller after it finds the table stale. -/
theorem rebuildLaziness : Obligations.RebuildLaziness := by
  refine ⟨fun s between caller t u hfresh hquiet hrun hcaller hexec => ?between,
    fun before caller t u hquiet hrun hcaller hexec => ?first, fun s t i hcaller hexec => ?noCaller⟩
  case between =>
    obtain ⟨hlut, hrbcnt, hdirty⟩ := execAll_keepsTable hquiet hrun
    obtain ⟨hcount, hclean⟩ := exec_caller hcaller hexec
    rw [State.ensureFresh_rbcnt, hdirty, hfresh, Bool.false_or, hrbcnt] at hcount
    exact ⟨hlut, hrbcnt, hcount, hclean⟩
  case first =>
    obtain ⟨-, hrbcnt, hdirty⟩ := execAll_keepsTable hquiet hrun
    obtain ⟨hcount, -⟩ := exec_caller hcaller hexec
    have hstale : t.status.dirty = true := hdirty
    rw [State.ensureFresh_rbcnt, hstale, hrbcnt] at hcount
    exact ⟨hrbcnt, hcount⟩
  case noCaller =>
    obtain ⟨hlut, hrbcnt, hdirty⟩ := exec_next_keepsTable hcaller hexec
    exact ⟨hlut, hrbcnt, hdirty⟩

end Sys2Proof.Machine
end

section
/-! PROOFS. The identity setting of the logarithmic table (R191): for the base one step above 1 the real value of entry
`i` lies in `[i, i + 1)`, between Bernoulli's inequality and the tangent of the logarithm. -/

namespace Sys2Proof.Machine

/-- Bernoulli's inequality for an exponent in `[0, 1]`, in logarithms. -/
theorem mul_log_one_add_le {p e : ℝ} (hp0 : 0 ≤ p) (hp1 : p ≤ 1) (he : 0 < e) :
    p * Real.log (1 + e) ≤ Real.log (1 + p * e) := by
  rw [← Real.log_rpow (by linarith)]
  exact Real.log_le_log (by positivity) (rpow_one_add_le_one_add_mul_self (by linarith) hp0 hp1)

/-- The other side: `log (1 + p * e) ≤ p * e`, and `e ≤ (1 + e) * log (1 + e)`. -/
theorem log_one_add_mul_le {p e : ℝ} (hp0 : 0 ≤ p) (he : 0 < e) :
    Real.log (1 + p * e) ≤ p * (1 + e) * Real.log (1 + e) := by
  have hupper : Real.log (1 + p * e) ≤ p * e := by
    linarith [Real.log_le_sub_one_of_pos (show 0 < 1 + p * e by positivity)]
  have hlower : e ≤ (1 + e) * Real.log (1 + e) := by
    have h := mul_le_mul_of_nonneg_left (Real.one_sub_inv_le_log_of_pos (show 0 < 1 + e by linarith))
      (show 0 ≤ 1 + e by linarith)
    rwa [mul_sub, mul_inv_cancel₀ (by linarith), mul_one, add_sub_cancel_left] at h
  calc Real.log (1 + p * e) ≤ p * e := hupper
    _ ≤ p * ((1 + e) * Real.log (1 + e)) := mul_le_mul_of_nonneg_left hlower hp0
    _ = p * (1 + e) * Real.log (1 + e) := by ring

theorem logArgReal_nearOne {i : Nat} (hi : i ≤ 255) : logArgReal 65537 i = 1 + (i / 255 : ℝ) * (1 / 65536) := by
  rw [logArgReal, logArg_cast hi]
  push_cast
  ring

/-- At the base `65537 / 65536` with no shift the real value of an entry falls to its own index. -/
theorem floor_logValue_nearOne {i : Nat} (hi : i ≤ 255) : ⌊logValue 65537 0 i⌋ = (i : Int) := by
  have hi' : (i : ℝ) ≤ 255 := by exact_mod_cast hi
  have hp0 : (0 : ℝ) ≤ i / 255 := by positivity
  have hbase : logBaseReal 65537 = 1 + 1 / 65536 := by rw [logBaseReal]; norm_num
  have hlog : 0 < Real.log (1 + 1 / 65536) := Real.log_pos (by norm_num)
  have hlow := (le_div_iff₀ hlog).mpr (mul_log_one_add_le hp0 ((div_le_one (by norm_num)).mpr hi') (by norm_num))
  have hhigh := (div_le_iff₀ hlog).mpr (log_one_add_mul_le hp0 (show (0 : ℝ) < 1 / 65536 by norm_num))
  rw [Int.floor_eq_iff, logValue, logArgReal_nearOne hi, hbase]
  push_cast
  constructor <;> linarith

/-- The table of the base one step above 1, unshifted, is the identity. -/
theorem logLut_nearOne_entry (i : Byte) : (logLut 0x00010001#32 0#32).entry i = i := by
  have hi : i.toNat ≤ 255 := Nat.le_of_lt_succ i.isLt
  have hfloor : ⌊logValue (0x00010001#32 : Word).toNat (0#32 : Word).toInt i.toNat⌋ = (i.toNat : Int) :=
    floor_logValue_nearOne hi
  rw [logLut, Lut.entry_ofFn, logEntry_eq_clamp8_floor (by decide) (by decide) hi, hfloor]
  apply BitVec.eq_of_toNat_eq
  exact_mod_cast clamp8_toNat_of_byte (Int.natCast_nonneg _) (by exact_mod_cast hi)

end Sys2Proof.Machine
end

section
/-! PROOFS. `APPLY`: the order of its checks (R182, R184), and the global pass (R186 to R191), each byte of which is a
map through the refreshed table that touches no other byte. -/

namespace Sys2Proof.Machine

/-! ## The checks (R182, R184) -/

/-- The dimension check is made under a local strategy only, and there before every other. -/
theorem State.applyError_eq_dimensionMismatch_iff {s : State} :
    s.applyError = some .dimensionMismatch ↔ s.strat ≠ .log ∧ s.dstDim ≠ s.srcDim := by
  by_cases hlog : s.strat = .log
  · rcases State.applyError_log hlog with ⟨-, h⟩ | ⟨-, h⟩ <;> simp [h, hlog]
  · rcases State.applyError_local hlog with ⟨hdim, h⟩ | ⟨hdim, -, h⟩ | ⟨hready, h⟩
    · simp [h, hlog, hdim]
    · simp [h, hlog, hdim]
    · have hdim : s.dstDim = s.srcDim := halves_inj.2 ⟨hready.1, hready.2.1⟩
      simp [h, hdim]

/-- With equal dimensions, any other failing check of a local strategy is an unusable descriptor (R183, R185). -/
theorem State.applyError_bufferDescriptor_of_not_ready {s : State} (hlog : s.strat ≠ .log) (hdim : s.dstDim = s.srcDim)
    (hready : ¬ s.LocalReady) : s.applyError = some .bufferDescriptor := by
  rcases State.applyError_local hlog with ⟨h, -⟩ | ⟨-, -, h⟩ | ⟨h, -⟩
  · exact absurd hdim h
  · exact h
  · exact absurd h hready

/-- `APPLY` answers `(2, 0)` when its checks name the dimensions, and then only. -/
theorem exec_apply_answers_two_iff (s : State) : ∃ t : State, exec .apply s = .next t ∧
    (t.responses = s.responses ++ [{ status := 2#8, data := 0#32 }] ↔ s.applyError = some .dimensionMismatch) := by
  rcases execApply_cases s with ⟨e, herror, hexec⟩ | ⟨hnone, hexec⟩
  · refine ⟨_, hexec, ?_⟩
    rw [herror]
    cases e <;> simp [ErrorCode.code]
  · obtain ⟨f, hpass⟩ := s.applyPass_eq
    have hresp : s.applyPass.responses = s.responses := by rw [hpass]; split <;> simp
    refine ⟨_, hexec, ?_⟩
    simp [hnone, hresp]

/-- Settles O42: each failing check names its error, and the error is all that `raise` records. -/
theorem applyChecksInOrder : Obligations.ApplyChecksInOrder := by
  intro s
  refine ⟨by decide, fun hlog hdst => ?_, fun hlog hdim => ?_, fun hlog hdim hbad => ?_, ?_⟩
  · rcases State.applyError_log hlog with ⟨h, -⟩ | ⟨-, h⟩
    · exact absurd h hdst
    · exact exec_apply_of_some h
  · exact exec_apply_of_some (State.applyError_eq_dimensionMismatch_iff.2 ⟨hlog, hdim⟩)
  · refine exec_apply_of_some (State.applyError_bufferDescriptor_of_not_ready hlog hdim ?_)
    rintro ⟨-, -, hdst, hsrc, hscratch⟩
    rcases hbad with h | h | h
    · exact h hdst
    · exact h hsrc
    · omega
  · obtain ⟨t, hexec, hiff⟩ := exec_apply_answers_two_iff s
    have hdim : s.dstDim ≠ s.srcDim ↔ s.dst.width ≠ s.src.width ∨ s.dst.height ≠ s.src.height :=
      halves_inj.not.trans not_and_or
    exact ⟨t, hexec, by rw [hiff, State.applyError_eq_dimensionMismatch_iff, hdim]⟩

/-! ## The global pass (R186, R188) -/

/-- A usable buffer's row fits its stride, so no two of its bytes share an address (R183). -/
theorem Descriptor.Usable.row_le_stride {d : Descriptor} {n : Nat} (h : d.Usable n) : 4 * d.width ≤ d.stride := by
  obtain ⟨-, -, hrow, -⟩ := h
  exact hrow

/-- The state after `APPLY` under LOG past validation: the rebuild step, the pass's memory, and the answer OK. -/
def State.globalApplied (s : State) : State :=
  { s.ensureFresh with mem := s.applyPass.mem, responses := s.responses ++ [{ status := 0#8, data := 0#32 }] }

theorem exec_apply_log {s : State} (hlog : s.strat = .log) (hdst : s.dst.Usable s.params.memBytes) :
    exec .apply s = .next s.globalApplied := by
  rw [exec_apply_of_none (State.applyError_none_log hlog hdst), State.globalApplied, State.done, State.respond,
    State.applyPass_log hlog, State.ensureFresh_responses]

/-- A pass keeps the memory's canonical form. -/
theorem State.wf_applyPass {s : State} (hwf : s.mem.wf = true) : s.applyPass.mem.wf = true := by
  obtain ⟨f, hpass⟩ := s.applyPass_eq
  rw [hpass]
  exact Memory.wf_writeAll hwf _

/-- Every in-scope byte goes through the refreshed table. -/
theorem State.read_applyPass_log {s : State} (hlog : s.strat = .log) (hdst : s.dst.Usable s.params.memBytes)
    (hwf : s.mem.wf = true) {a : Nat} (ha : s.InScope a) :
    s.applyPass.mem.read a = s.ensureFresh.lutByte (s.mem.read a) := by
  obtain ⟨p, hp, rfl⟩ := State.inScope_iff.1 ha
  rw [State.applyPass_log hlog]
  exact (State.read_scopeStores hwf hdst.row_le_stride
    fun p => s.ensureFresh.lutByte (s.mem.read (s.dst.addr p))).1 p hp

/-- Settles O43: the stores of the pass, and the frame every pass has. -/
theorem applyLogMapsTheScope : Obligations.ApplyLogMapsTheScope := fun s hlog hdst hwf =>
  ⟨s.applyPass.mem, exec_apply_log hlog hdst,
    fun x y c hx hy _ hc => State.read_applyPass_log hlog hdst hwf ⟨⟨x, y, c⟩, hx, hy, hc, rfl⟩,
    fun _ ha => State.applyPass_frame hwf ha⟩

/-! ## The order of the visits (R189) -/

/-- The store of one visit of the global pass, its byte read from the memory as it was. -/
def State.globalStore (s : State) (p : Site) : Nat × Byte := (s.dst.addr p, s.lutByte (s.mem.read (s.dst.addr p)))

theorem State.globalPass_mem (s : State) : s.globalPass.mem = s.mem.writeAll (s.scopeSites.map s.globalStore) := rfl

/-- The addresses of the visits are distinct in any order. -/
theorem State.order_addr_nodup {s : State} {order : List Site} (hstride : 4 * s.dst.width ≤ s.dst.stride)
    (hperm : order.Perm s.scopeSites) : (order.map s.dst.addr).Nodup :=
  (hperm.map _).nodup_iff.2 (State.scopeSites_addr_nodup hstride)

/-- Visiting byte after byte in any order is the global pass: no visit reads what another has written, and stores to
distinct addresses commute. -/
theorem State.foldl_visits_eq_globalPass {s : State} {order : List Site} (hwf : s.mem.wf = true)
    (hstride : 4 * s.dst.width ≤ s.dst.stride) (hperm : order.Perm s.scopeSites) :
    order.foldl (fun m p => m.write (s.dst.addr p) (s.lutByte (m.read (s.dst.addr p)))) s.mem = s.globalPass.mem := by
  have haddr : (order.map s.dst.addr).Nodup := State.order_addr_nodup hstride hperm
  have hapart : ∀ p ∈ order, ∀ q ∈ order, q ≠ p → s.dst.addr q ≠ s.dst.addr p := fun p hp q hq hne heq =>
    hne (List.inj_on_of_nodup_map haddr hq hp heq)
  calc order.foldl (fun m p => m.write (s.dst.addr p) (s.lutByte (m.read (s.dst.addr p)))) s.mem
      = s.mem.writeAll (order.map s.globalStore) :=
        Memory.foldl_write_eq_writeAll (f := fun _ => s.lutByte) order s.mem hwf haddr.of_map hapart
    _ = s.mem.writeAll (s.scopeSites.map s.globalStore) :=
        Memory.writeAll_perm hwf (hperm.map _) (by rwa [List.map_map])
    _ = s.globalPass.mem := s.globalPass_mem.symm

/-- Settles O49: the order is the model's own up to a permutation, and the rebuild step moves neither the buffer nor the
memory. -/
theorem globalPassIsScheduleFree : Obligations.GlobalPassIsScheduleFree := by
  intro s order hwf hlog hdst hnodup horder
  have hperm : order.Perm s.scopeSites := State.perm_scopeSites hnodup horder
  have hvisits := State.foldl_visits_eq_globalPass (s := s.ensureFresh) (order := order) (by simpa using hwf)
    (by simpa using hdst.row_le_stride) (by simpa using hperm)
  have hpass : s.applyPass = s.ensureFresh.globalPass := by rw [State.applyPass, hlog]
  rw [State.ensureFresh_dst, State.ensureFresh_mem, ← hpass] at hvisits
  exact ⟨State.order_addr_nodup hdst.row_le_stride hperm, s.globalApplied, exec_apply_log hlog hdst, hvisits⟩

/-! ## An identity table, and a second pass (R191) -/

/-- A map by the identity writes every byte back as it was. -/
theorem State.applyPass_mem_of_identity {s : State} (hlog : s.strat = .log) (hdst : s.dst.Usable s.params.memBytes)
    (hwf : s.mem.wf = true) (hid : ∀ v : Byte, s.ensureFresh.lutByte v = v) : s.applyPass.mem = s.mem := by
  refine Memory.ext (State.wf_applyPass hwf) hwf fun a => ?_
  by_cases ha : s.InScope a
  · rw [State.read_applyPass_log hlog hdst hwf ha, hid]
  · exact State.applyPass_frame hwf ha

/-- A stale table rebuilt at the identity setting is the identity. -/
theorem State.ensureFresh_lutByte_nearOne {s : State} (hlog : s.strat = .log) (hbase : s.base = 0x00010001#32)
    (hdelta : s.delta = 0#32) (hstale : s.status.dirty = true) (v : Byte) : s.ensureFresh.lutByte v = v := by
  rw [State.ensureFresh_of_dirty hstale, State.lutByte_of_some rfl, hlog, hbase, hdelta]
  exact logLut_nearOne_entry v

@[simp] theorem State.globalApplied_strat (s : State) : s.globalApplied.strat = s.strat := s.ensureFresh_strat
@[simp] theorem State.globalApplied_params (s : State) : s.globalApplied.params = s.params := s.ensureFresh_params
@[simp] theorem State.globalApplied_scope (s : State) : s.globalApplied.scope = s.scope := s.ensureFresh_scope
@[simp] theorem State.globalApplied_dst (s : State) : s.globalApplied.dst = s.dst := s.ensureFresh_dst
@[simp] theorem State.globalApplied_mem (s : State) : s.globalApplied.mem = s.applyPass.mem := rfl
@[simp] theorem State.globalApplied_lutByte (s : State) (i : Byte) :
    s.globalApplied.lutByte i = s.ensureFresh.lutByte i := rfl

/-- The first pass leaves the table fresh, so the second does not rebuild it. -/
@[simp] theorem State.globalApplied_ensureFresh (s : State) : s.globalApplied.ensureFresh = s.globalApplied :=
  State.ensureFresh_of_fresh s.ensureFresh_dirty

/-- A second application maps the same bytes through the same table again. -/
theorem State.read_applyPass_twice {s : State} (hlog : s.strat = .log) (hdst : s.dst.Usable s.params.memBytes)
    (hwf : s.mem.wf = true) {a : Nat} (ha : s.InScope a) : s.globalApplied.applyPass.mem.read a =
      s.globalApplied.lutByte (s.globalApplied.lutByte (s.mem.read a)) := by
  have ha' : s.globalApplied.InScope a := by simpa [State.InScope] using ha
  have hwf' : s.globalApplied.mem.wf = true := State.wf_applyPass hwf
  rw [State.read_applyPass_log (by simpa using hlog) (by simpa using hdst) hwf' ha',
    State.globalApplied_ensureFresh, State.globalApplied_mem, State.read_applyPass_log hlog hdst hwf ha,
    State.globalApplied_lutByte s (s.mem.read a)]

/-- Settles O55: the identity map byte by byte, the identity setting's table, and the pass after the pass. -/
theorem identityTableLeavesMemory : Obligations.IdentityTableLeavesMemory := by
  refine ⟨fun s hlog hdst hwf hid => ?identity, fun s hlog hbase hdelta hstale => ?setting,
    fun s hlog hdst hwf => ?twice⟩
  case identity => exact ⟨_, exec_apply_log hlog hdst, State.applyPass_mem_of_identity hlog hdst hwf hid⟩
  case setting => exact State.ensureFresh_lutByte_nearOne hlog hbase hdelta hstale
  case twice =>
    exact ⟨s.globalApplied, s.globalApplied.globalApplied, exec_apply_log hlog hdst,
      exec_apply_log (by simpa using hlog) (by simpa using hdst),
      fun _ ha => State.read_applyPass_twice hlog hdst hwf ha⟩

end Sys2Proof.Machine
end

section
/-! PROOFS. The local pass of `APPLY` (R200 to R212) with the buffers apart: each in-scope destination byte is one function
of the source byte in the same place, every other byte is kept, and neither the order of the visits nor a late read of the
source byte matters, because no visit writes the byte another one reads. -/

namespace Sys2Proof.Machine

/-! ## The state the pass runs in -/

/-- The state the local pass runs in: CONTRAST refreshes the table first, FLATFIELD uses none (R207 F2). -/
def State.passState (s : State) : State := if s.strat = .flatField then s else s.ensureFresh

theorem State.passState_flatField {s : State} (h : s.strat = .flatField) : s.passState = s := if_pos h

theorem State.passState_of_ne {s : State} (h : s.strat ≠ .flatField) : s.passState = s.ensureFresh := if_neg h

theorem State.passState_cases (s : State) : s.passState = s ∨ s.passState = s.ensureFresh := ite_eq_or_eq _ _ _

@[simp] theorem State.passState_win (s : State) : s.passState.win = s.win := by
  rcases s.passState_cases with h | h <;> simp [h]
@[simp] theorem State.passState_mem (s : State) : s.passState.mem = s.mem := by
  rcases s.passState_cases with h | h <;> simp [h]
@[simp] theorem State.passState_responses (s : State) : s.passState.responses = s.responses := by
  rcases s.passState_cases with h | h <;> simp [h]
@[simp] theorem State.passState_dst (s : State) : s.passState.dst = s.dst := by
  rcases s.passState_cases with h | h <;> simp [h]
@[simp] theorem State.passState_src (s : State) : s.passState.src = s.src := by
  rcases s.passState_cases with h | h <;> simp [h]
@[simp] theorem State.passState_scopeSites (s : State) : s.passState.scopeSites = s.scopeSites := by
  rcases s.passState_cases with h | h <;> simp [h]
@[simp] theorem State.passState_workingCopy (s : State) : s.passState.workingCopy = s.workingCopy := by
  rcases s.passState_cases with h | h <;> simp [h]

/-- Under a local strategy the pass is the local pass from there. -/
theorem State.applyPass_of_local {s : State} (hlocal : s.strat ≠ .log) : s.applyPass = s.passState.localPass := by
  cases hstrat : s.strat with
  | log => exact absurd hstrat hlocal
  | flatField => rw [State.applyPass, hstrat, State.passState_flatField hstrat]
  | contrast => rw [State.applyPass, hstrat, State.passState_of_ne (by simp [hstrat])]

/-! ## What the pass leaves (R200, R206, R208, R212) -/

/-- The blurred reference at `p` (R202). -/
def State.reference (s : State) (p : Site) : Byte :=
  blur s.dst.width s.dst.height (lowHalf s.win).toNat (highHalf s.win).toNat s.workingCopy p.x p.y p.c

/-- The output byte at `p` for the source byte `source`: the reference and the sum are of the working copy (R204). -/
def State.localByte (s : State) (p : Site) (source : Byte) : Byte :=
  s.passState.combine source (s.reference p) (laneSum s.dst.width s.dst.height s.workingCopy p.c)
    (s.dst.width * s.dst.height)

/-- The store of one visit of the local pass, its source byte read from the memory as it was. -/
def State.localStore (s : State) (p : Site) : Nat × Byte := (s.dst.addr p, s.localByte p (s.mem.read (s.src.addr p)))

theorem State.localByte_flatField {s : State} (h : s.strat = .flatField) (p : Site) (source : Byte) :
    s.localByte p source = ffCombine source (s.reference p) (laneSum s.dst.width s.dst.height s.workingCopy p.c)
      (s.dst.width * s.dst.height) := by
  rw [State.localByte, State.passState_flatField h, State.combine, if_pos h]

theorem State.localByte_of_ne {s : State} (h : s.strat ≠ .flatField) (p : Site) (source : Byte) :
    s.localByte p source = s.ensureFresh.lutByte (ksiIndex source (s.reference p)) := by
  rw [State.localByte, State.passState_of_ne h, State.combine, State.ensureFresh_strat, if_neg h]

/-- The sum matters under FLATFIELD only, so computing it there only makes no difference (R205). -/
theorem State.combine_sum_of_flatField (s : State) (source reference : Byte) (sum n : Nat) :
    s.combine source reference (if s.strat = .flatField then sum else 0) n = s.combine source reference sum n := by
  unfold State.combine
  split <;> rfl

/-- The pass past validation stores one byte for each visited channel byte. -/
theorem State.applyPass_apart {s : State} (hlocal : s.strat ≠ .log) (hapart : s.BuffersApart) :
    s.applyPass = { s.passState with mem := s.mem.writeAll (s.scopeSites.map s.localStore) } := by
  have hapart' : s.passState.BuffersApart := by simpa [State.BuffersApart] using hapart
  rw [State.applyPass_of_local hlocal, State.localPass_apart hapart']
  simp only [State.combine_sum_of_flatField, State.passState_mem, State.passState_scopeSites, State.passState_dst,
    State.passState_win, State.passState_workingCopy]
  rfl

/-- The state after a local `APPLY` past validation: the pass's memory and the answer OK. -/
def State.localApplied (s : State) : State :=
  { s.passState with mem := s.applyPass.mem, responses := s.responses ++ [{ status := 0#8, data := 0#32 }] }

theorem exec_apply_apart {s : State} (hlocal : s.strat ≠ .log) (hready : s.LocalReady) (hapart : s.BuffersApart) :
    exec .apply s = .next s.localApplied := by
  rw [exec_apply_of_none (State.applyError_none_local hlocal hready), State.localApplied, State.done, State.respond,
    State.applyPass_apart hlocal hapart, State.passState_responses]

/-- The destination's rows do not overlap (R183). -/
theorem State.LocalReady.row_le_stride {s : State} (h : s.LocalReady) : 4 * s.dst.width ≤ s.dst.stride := by
  obtain ⟨-, -, hdst, -, -⟩ := h
  exact hdst.row_le_stride

/-- Every in-scope byte is the output byte of its visit. -/
theorem State.read_applyPass_apart {s : State} (hlocal : s.strat ≠ .log) (hready : s.LocalReady)
    (hapart : s.BuffersApart) (hwf : s.mem.wf = true) {p : Site} (hp : p ∈ s.scopeSites) :
    s.applyPass.mem.read (s.dst.addr p) = s.localByte p (s.mem.read (s.src.addr p)) := by
  rw [State.applyPass_apart hlocal hapart]
  exact (State.read_scopeStores hwf hready.row_le_stride fun p => s.localByte p (s.mem.read (s.src.addr p))).1 p hp

/-- The lane sum of the working copy is the sum of the source's bytes in memory. -/
theorem State.laneSum_workingCopy (s : State) (w h c : Nat) : laneSum w h s.workingCopy c =
    ∑ v ∈ Finset.range h, ∑ u ∈ Finset.range w, (s.mem.read (s.src.base + v * s.src.stride + 4 * u + c)).toNat :=
  laneSum_eq_sum w h s.workingCopy c

/-- Under the cache invariant the rebuild step leaves the table of the present parameters (R31, R33). -/
theorem State.Inv.ensureFresh_lut {s : State} (h : s.Inv) :
    s.ensureFresh.lut = some (lutGen s.strat s.base s.delta s.ca s.cb) := by
  rcases s.ensureFresh_cases with ⟨hfresh, e⟩ | ⟨-, e⟩
  · rw [e, h.cache hfresh]
  · rw [e]

/-- Settles O44: the store of the visit is `FFCombine`, whose two cases are the guard and the quotient; the frame is the one
every pass has. -/
theorem applyFlatFieldCombines : Obligations.ApplyFlatFieldCombines := by
  intro s hstrat hready hapart hwf
  have hlocal : s.strat ≠ .log := by simp [hstrat]
  refine ⟨s.applyPass.mem, ?completes, fun x y c hx hy _ hc => ?bytes, fun _ ha => State.applyPass_frame hwf ha⟩
  case completes => rw [exec_apply_apart hlocal hready hapart, State.localApplied, State.passState_flatField hstrat]
  case bytes =>
    have hout := State.read_applyPass_apart hlocal hready hapart hwf (State.mem_scopeSites_mk hx hy hc)
    rw [State.localByte_flatField hstrat, State.laneSum_workingCopy] at hout
    exact ⟨fun hzero => hout.trans (if_pos hzero), fun hne => (congrArg BitVec.toNat hout).trans (ffCombine_toNat hne)⟩

/-- Settles O45: the store of the visit is the refreshed table's entry at the derived intensity; the frame is the one every
pass has. -/
theorem applyContrastCombines : Obligations.ApplyContrastCombines := by
  intro s hstrat hready hapart hwf
  have hlocal : s.strat ≠ .log := by simp [hstrat]
  have htable : s.strat ≠ .flatField := by simp [hstrat]
  refine ⟨s.applyPass.mem, ?completes, fun x y c hx hy _ hc => ?bytes, fun hinv => ?table,
    fun _ ha => State.applyPass_frame hwf ha⟩
  case completes => rw [exec_apply_apart hlocal hready hapart, State.localApplied, State.passState_of_ne htable]
  case bytes =>
    exact (State.read_applyPass_apart hlocal hready hapart hwf (State.mem_scopeSites_mk hx hy hc)).trans
      (State.localByte_of_ne htable _ _)
  case table => rw [hinv.ensureFresh_lut, hstrat, lutGen]

/-! ## The order of the visits, with late reads (R211, R219) -/

/-- With the buffers apart no visit writes the source byte of another: in place it is that visit's own byte, and otherwise
the footprints share none. -/
theorem State.dst_addr_ne_src_addr {s : State} (hready : s.LocalReady) (hapart : s.BuffersApart) {p q : Site}
    (hp : p ∈ s.scopeSites) (hq : q ∈ s.scopeSites) (hne : q ≠ p) : s.dst.addr q ≠ s.src.addr p := by
  intro heq
  rcases hapart with ⟨hbase, hstride⟩ | hdisjoint
  · have hsame : s.src.addr p = s.dst.addr p := by simp only [Descriptor.addr, hbase, hstride]
    exact hne (List.inj_on_of_nodup_map (State.scopeSites_addr_nodup hready.row_le_stride) hq hp (heq.trans hsame))
  · exact hdisjoint _ ⟨State.covers_dst hq, heq ▸ State.covers_src hready hp⟩

/-- Visiting byte after byte in any order, each source byte read just before its store, is the local pass. -/
theorem State.foldl_visits_eq_localPass {s : State} {order : List Site} (hwf : s.mem.wf = true) (hlocal : s.strat ≠ .log)
    (hready : s.LocalReady) (hapart : s.BuffersApart) (hperm : order.Perm s.scopeSites) :
    order.foldl (fun m p => m.write (s.dst.addr p) (s.localByte p (m.read (s.src.addr p)))) s.mem =
      s.applyPass.mem := by
  have haddr : (order.map s.dst.addr).Nodup := State.order_addr_nodup hready.row_le_stride hperm
  calc order.foldl (fun m p => m.write (s.dst.addr p) (s.localByte p (m.read (s.src.addr p)))) s.mem
      = s.mem.writeAll (order.map s.localStore) :=
        Memory.foldl_write_eq_writeAll order s.mem hwf haddr.of_map fun _ hp _ hq hne =>
          State.dst_addr_ne_src_addr hready hapart (hperm.mem_iff.1 hp) (hperm.mem_iff.1 hq) hne
    _ = s.mem.writeAll (s.scopeSites.map s.localStore) :=
        Memory.writeAll_perm hwf (hperm.map _) (by rwa [List.map_map])
    _ = s.applyPass.mem := by rw [State.applyPass_apart hlocal hapart]

/-- Settles O50: the order is the model's own up to a permutation, and the state after the pass combines as the state it ran
in, having the same strategy and table. -/
theorem localPassIsScheduleFree : Obligations.LocalPassIsScheduleFree := by
  intro s order hwf hlocal hready hapart hnodup horder
  exact ⟨s.localApplied, exec_apply_apart hlocal hready hapart,
    State.foldl_visits_eq_localPass hwf hlocal hready hapart (State.perm_scopeSites hnodup horder)⟩

end Sys2Proof.Machine
end

section
/-! PROOFS. Read-back and housekeeping (R231, R232): `CLRERR` is its definition, and `RDREG` answers what `State.readReg`
holds at the index. -/

namespace Sys2Proof.Machine

/-- Settles O39: the command is its definition. -/
theorem clrerrClearsTheRecord : Obligations.ClrerrClearsTheRecord := fun _ => ⟨by decide, rfl⟩

/-- Reading a register that exists answers it and does nothing else (R231). -/
theorem exec_rdreg_of_some {s : State} {idx : Byte} {v : Word} (h : s.readReg idx = some v) :
    exec (.rdreg idx) s = .next (s.respond 0#8 v) := by
  simp only [exec, execRdreg, h]

/-- SCOPE holds three bits; the unused high bits of the word read zero (R231). -/
theorem State.readReg_scope (s : State) : s.readReg 0x04#8 = some (0#29 ++ s.scope) :=
  congrArg some (BitVec.setWidth_eq_append (by decide))

/-- Settles O40: the register map R21 entry by entry; STRAT is the code of its strategy and SCOPE a zero-extension, the
other entries are their definition. -/
theorem rdregReadsTheRegister : Obligations.RdregReadsTheRegister := by
  refine fun s => ⟨decode_encodeFields_indexWord (mk := .rdreg) fun _ => rfl, fun p hp => exec_rdreg_of_some ?map,
    fun _ hidx => exec_rdreg_of_missing (s.readReg_eq_none hidx)⟩
  case map =>
    revert p
    simp only [List.forall_mem_cons]
    refine ⟨rfl, rfl, rfl, ?strat, s.readReg_scope, rfl, rfl, rfl, rfl, rfl, rfl, rfl, rfl, rfl, rfl, rfl,
      List.forall_mem_nil _⟩
    case strat => exact congrArg some (by cases s.strat <;> rfl)

end Sys2Proof.Machine
end

section
/-! PROOFS. Errors are precise (R246, R247): a command word raises one error, which records itself and does nothing else,
or it answers OK and, unless it is `CLRERR`, leaves the error record. -/

namespace Sys2Proof.Machine

/-- Recording an error, read off its response's status byte `k`: the flag of `k` is set and LASTERR is `k` (R246). -/
theorem Status.record_eq_of_statusByte {k : Byte} {e : ErrorCode} (hk : BitVec.ofNat 8 e.code = k) (st : Status) :
    st.record e = { dirty := st.dirty
                    eCfg := st.eCfg || decide (k = 1#8)
                    eDim := st.eDim || decide (k = 2#8)
                    eDesc := st.eDesc || decide (k = 3#8)
                    eIll := st.eIll || decide (k = 4#8)
                    lastErr := k.setWidth 4 } := by
  subst hk
  cases e <;> simp [Status.record, ErrorCode.code]

/-- A command word, legal or not, raises an error and does nothing else, or it answers OK from a state in which the
responses and (but for `CLRERR`) the error record are as they were. -/
theorem execWord_cases (w : CommandWord) (s : State) :
    (∃ e, execWord w s = .next (s.raise e)) ∨
    (∃ (u : State) (d : Word), execWord w s = .next (u.respond 0#8 d) ∧ u.responses = s.responses ∧
      (decode w ≠ some .clrerr → u.status = { s.status with dirty := u.status.dirty })) := by
  cases hw : decode w with
  | none => exact .inl ⟨.illegalCommand, execWord_none hw s⟩
  | some i =>
    rw [execWord_some hw]
    refine (exec_cases i s).imp id fun ⟨u, d, hexec, _, _, hresp, hstatus, _⟩ => ⟨u, d, hexec, hresp, fun hne => ?_⟩
    exact hstatus fun hi => hne (congrArg some hi)

/-- Settles O38: by how the word ends; taking it off the port changes no register and no response. -/
theorem errorsArePrecise : Obligations.ErrorsArePrecise := by
  intro s t w rest r hin hstep hresp
  rw [step_command hin] at hstep
  rcases execWord_cases w { s with inbox := rest } with ⟨e, hexec⟩ | ⟨u, d, hexec, hkept, hstatus⟩
  · obtain rfl := Host.Outcome.next.inj (hexec.symm.trans hstep)
    obtain rfl : { status := BitVec.ofNat 8 e.code, data := 0#32 } = r :=
      List.singleton_inj.1 (List.append_cancel_left hresp)
    refine ⟨fun _ => ⟨rfl, ?_⟩, fun hok => absurd hok e.statusByte_bounds.2⟩
    rw [← Status.record_eq_of_statusByte rfl]
    rfl
  · obtain rfl := Host.Outcome.next.inj (hexec.symm.trans hstep)
    rw [State.respond_responses, hkept] at hresp
    obtain rfl : { status := 0#8, data := d } = r := List.singleton_inj.1 (List.append_cancel_left hresp)
    exact ⟨fun hfailed => absurd rfl hfailed, fun _ => hstatus⟩

end Sys2Proof.Machine
end

section
/-! PROOFS. Encoding and decoding (R92 to R96): the decoder gives back what the encoder was given, a word that decodes is
the encoding of its command, and the four checks of R98 are the acceptance of a row. -/

namespace Sys2Proof

/-! ## Decoding undoes encoding -/

/-- Each command's opcode and operand field decode to the command: for `P16` and `I8` because their operands are read back
from the field. -/
theorem decode_encode (i : Instr) : decode (encode i) = some i := by
  cases i with
  | setstrat v => exact decode_encodeFields _ v
  | setscope v => exact decode_encodeFields _ v
  | setbase v => exact decode_encodeFields _ v
  | setdelta v => exact decode_encodeFields _ v
  | seta v => exact decode_encodeFields _ v
  | setb v => exact decode_encodeFields _ v
  | setwin ww wh => exact Machine.decode_encodeFields_pairWord (mk := .setwin) (fun _ => rfl) ww wh
  | setdstbase v => exact decode_encodeFields _ v
  | setdstdim w h => exact Machine.decode_encodeFields_pairWord (mk := .setdstdim) (fun _ => rfl) w h
  | setdststride v => exact decode_encodeFields _ v
  | setsrcbase v => exact decode_encodeFields _ v
  | setsrcdim w h => exact Machine.decode_encodeFields_pairWord (mk := .setsrcdim) (fun _ => rfl) w h
  | setsrcstride v => exact decode_encodeFields _ v
  | markdirty => exact decode_encodeFields _ _
  | fresh => exact decode_encodeFields _ _
  | lutrd idx => exact Machine.decode_encodeFields_indexWord (mk := .lutrd) (fun _ => rfl) idx
  | rdreg idx => exact Machine.decode_encodeFields_indexWord (mk := .rdreg) (fun _ => rfl) idx
  | clrerr => exact decode_encodeFields _ _
  | apply => exact decode_encodeFields _ _

/-- Settles O1: constructor by constructor. -/
theorem decodeOfEncode : Obligations.DecodeOfEncode := decode_encode

/-- Settles O6: each word is read field by field. -/
theorem exampleWordsDecode : Obligations.ExampleWordsDecode := by
  unfold Obligations.ExampleWordsDecode
  decide

/-! ## A word that decodes is the word of its command -/

/-- `i` has the opcode `op` and the operand field `imm`. -/
structure Instr.HasFields (i : Instr) (op : Byte) (imm : Word) : Prop where
  /-- The opcode, R96. -/
  opcode : i.opcode = op
  /-- The operand field, R93. -/
  operand : i.operand = imm

theorem Instr.HasFields.encode_eq {i : Instr} {op : Byte} {imm : Word} (h : i.HasFields op imm) :
    encode i = encodeFields op imm := by
  rw [encode, h.opcode, h.operand]

theorem hasFields_of_decodeZ {i j : Instr} {imm : Word} (h : decodeZ imm j = some i) (hj : j.operand = 0#32) :
    i.HasFields j.opcode imm := by
  obtain ⟨rfl, hi⟩ := Option.ite_none_right_eq_some.1 h
  obtain rfl := Option.some.inj hi
  exact ⟨rfl, hj⟩

theorem hasFields_of_decodeI32 {i : Instr} {op : Byte} {imm : Word} {mk : Word → Instr}
    (h : decodeI32 imm mk = some i) (hmk : (mk imm).HasFields op imm) : i.HasFields op imm := by
  obtain rfl := Option.some.inj h
  exact hmk

theorem hasFields_of_decodeP16 {i : Instr} {op : Byte} {imm : Word} {mk : Half → Half → Instr}
    (h : decodeP16 imm mk = some i) (hmk : ∀ lo hi, (mk lo hi).HasFields op (pairWord lo hi)) : i.HasFields op imm := by
  obtain rfl := Option.some.inj h
  simpa using hmk (lowHalf imm) (highHalf imm)

theorem hasFields_of_decodeI8 {i : Instr} {op : Byte} {imm : Word} {mk : Byte → Instr}
    (h : decodeI8 imm mk = some i) (hmk : ∀ idx, (mk idx).HasFields op (indexWord idx)) : i.HasFields op imm := by
  obtain ⟨hz, hi⟩ := Option.ite_none_right_eq_some.1 h
  obtain rfl := Option.some.inj hi
  simpa [indexWord_lowByte hz] using hmk (lowByte imm)

/-- No bit of the two fields is lost in decoding, format by format. -/
theorem hasFields_of_decodeOp {op : Byte} {imm : Word} {i : Instr} (h : decodeOp op imm = some i) :
    i.HasFields op imm := by
  unfold decodeOp at h
  split at h
  case h_1 | h_2 | h_3 | h_4 | h_5 | h_6 | h_8 | h_10 | h_11 | h_13 => exact hasFields_of_decodeI32 h ⟨rfl, rfl⟩
  case h_7 | h_9 | h_12 => exact hasFields_of_decodeP16 h fun _ _ => ⟨rfl, rfl⟩
  case h_14 | h_15 | h_18 | h_19 => exact hasFields_of_decodeZ h rfl
  case h_16 | h_17 => exact hasFields_of_decodeI8 h fun _ => ⟨rfl, rfl⟩
  case h_20 => cases h

/-- Settles O2: the word is made of its two fields, and so is the command's. -/
theorem encodeOfDecode : Obligations.EncodeOfDecode := by
  intro w i h
  obtain ⟨hrsv, hop⟩ := decode_eq_some h
  rw [(hasFields_of_decodeOp hop).encode_eq, encodeFields_fields hrsv]

/-! ## The four checks (R98) -/

theorem opcodeAssigned_iff {w : CommandWord} : opcodeAssigned w = true ↔ ∃ r ∈ opcodeTable, r.op = opField w := by
  simp [opcodeAssigned]

theorem noOperandZero_iff {w : CommandWord} : noOperandZero w = true ↔
    ∀ r ∈ opcodeTable, r.op = opField w → r.format = .z → immField w = 0#32 := by
  simp only [noOperandZero, List.all_eq_true]
  exact forall₂_congr fun r _ => by simp [imp_iff_not_or, or_assoc]

theorem indexFits_iff {w : CommandWord} : indexFits w = true ↔
    ∀ r ∈ opcodeTable, r.op = opField w → r.format = .i8 → highBits (immField w) = 0#24 := by
  simp only [indexFits, List.all_eq_true]
  exact forall₂_congr fun r _ => by simp [imp_iff_not_or, or_assoc]

/-- For a word with a row's opcode the two operand checks are the row's must-be-zero bits. -/
theorem operandChecks_iff {r : Row} {w : CommandWord} (hr : r ∈ opcodeTable) (hop : r.op = opField w) :
    (noOperandZero w = true ∧ indexFits w = true) ↔ immField w &&& r.format.zeroMask = 0#32 := by
  have hrow (r' : Row) (hr' : r' ∈ opcodeTable) (hop' : r'.op = opField w) : r' = r :=
    row_eq_of_op_eq r hr r' hr' (hop'.trans hop.symm)
  rw [and_zeroMask_eq_zero_iff, noOperandZero_iff, indexFits_iff]
  constructor
  · rintro ⟨hz, hi8⟩
    exact ⟨hz r hr hop, hi8 r hr hop⟩
  · rintro ⟨hz, hi8⟩
    exact ⟨fun r' hr' hop' => hrow r' hr' hop' ▸ hz, fun r' hr' hop' => hrow r' hr' hop' ▸ hi8⟩

/-- The checks together say that a row accepts the word. -/
theorem wellFormedWord_iff_accepts (w : CommandWord) :
    wellFormedWord w = true ↔ ∃ r ∈ opcodeTable, r.accepts w = true := by
  have hsplit : wellFormedWord w = true ↔
      (∃ r ∈ opcodeTable, r.op = opField w) ∧ rsvField w = 0#24 ∧ noOperandZero w = true ∧ indexFits w = true := by
    simp [wellFormedWord, opcodeAssigned_iff, reservedZero, and_assoc]
  rw [hsplit]
  constructor
  · rintro ⟨⟨r, hr, hop⟩, hrsv, hchecks⟩
    exact ⟨r, hr, Row.accepts_iff.2 ⟨hop.symm, hrsv, (operandChecks_iff hr hop).1 hchecks⟩⟩
  · rintro ⟨r, hr, ha⟩
    obtain ⟨hop, hrsv, hz⟩ := Row.accepts_iff.1 ha
    exact ⟨⟨r, hr, hop.symm⟩, hrsv, (operandChecks_iff hr hop.symm).2 hz⟩

/-- Settles O5: the words that decode are the words some row accepts (R95). -/
theorem wellFormedWordsDecode : Obligations.WellFormedWordsDecode := by
  intro w
  rw [wellFormedWord_iff_accepts]
  constructor
  · rintro ⟨r, hr, ha⟩
    obtain ⟨i, hi, -⟩ := decode_of_accepts hr ha
    exact ⟨i, hi⟩
  · rintro ⟨i, hi⟩
    by_contra hno
    have hnone : decode w = none :=
      decode_eq_none_iff.2 fun r hr => Bool.eq_false_iff.2 fun ha => hno ⟨r, hr, ha⟩
    simp [hnone] at hi

end Sys2Proof
end

section
/-! PROOFS. The invariant of the machine (R23, R33, R60, R246): each shared operation keeps it, so every command does, and
so does every host move. -/

namespace Sys2Proof.Machine

/-! ## A step, by the host's next move -/

/-- An idle step changes nothing (R262). -/
theorem step_idle {s : State} (h : s.inbox = []) : step s = .next s := by
  unfold step; rw [h]

/-- Any other step is the next move, taken off the inbox. -/
theorem step_move {s : State} {m : HostMove} {rest : List HostMove} (h : s.inbox = m :: rest) :
    step s = hostMove m { s with inbox := rest } := by
  unfold step; rw [h]

theorem hostMove_memWrite_of_lt {s : State} {a : Nat} (h : a < s.params.memBytes) (v : Byte) :
    hostMove (.memWrite a v) s = .next { s with mem := s.mem.write a v } := if_pos h

theorem hostMove_memWrite_of_ge {s : State} {a : Nat} (h : s.params.memBytes ≤ a) (v : Byte) :
    hostMove (.memWrite a v) s = .fault .noSuchAddress := if_neg (by omega)

/-! ## The shared operations keep the invariant -/

/-- An error just recorded is a consistent record, whatever was recorded before (R246). -/
theorem Status.consistent_record (st : Status) (e : ErrorCode) : (st.record e).consistent := by
  cases e <;> simp [Status.record, Status.consistent]

theorem Status.consistent_clearErrors (st : Status) : st.clearErrors.consistent := by
  simp [Status.consistent]

theorem State.Inv.respond {s : State} (h : s.Inv) (st : Byte) (d : Word) : (s.respond st d).Inv := { h with }

theorem State.Inv.done {s : State} (h : s.Inv) : s.done.Inv := h.respond _ _

theorem State.Inv.raise {s : State} (h : s.Inv) (e : ErrorCode) : (s.raise e).Inv :=
  { h with
    errors := Status.consistent_record _ e
    cache := fun hd => h.cache ((Status.record_dirty _ e).symm.trans hd) }

/-- What the rebuild step leaves is the table of the present parameters (R33). -/
theorem State.Inv.ensureFresh {s : State} (h : s.Inv) : s.ensureFresh.Inv := by
  rcases s.ensureFresh_cases with ⟨-, e⟩ | ⟨-, e⟩ <;> rw [e]
  · exact h
  · exact { h with cache := fun _ => rfl }

/-- A setter keeps the invariant when what it writes is legal; the table it leaves is marked dirty (R120). -/
theorem State.Inv.configure {s : State} (h : s.Inv) {ok : Bool} {write : State → State}
    (hwrite : ok = true → (write s).markDirty.Inv) : (s.configure ok write).Inv := by
  rcases s.configure_cases ok write with ⟨hok, e⟩ | ⟨-, e⟩ <;> rw [e]
  · exact (hwrite hok).done
  · exact h.raise _

/-- Stores to the in-scope bytes of a usable destination keep the memory canonical and within MEM_BYTES (R60, R183). -/
theorem State.Inv.scopeStores {s : State} (h : s.Inv) (hdst : s.dst.Usable s.params.memBytes) (f : Site → Byte) (n : Nat) :
    ({ s with mem := s.mem.writeAll (s.scopeSites.map fun p => (s.dst.addr p, f p)), freeIx := n } : State).Inv :=
  { h with
    memCanonical := Memory.wf_writeAll h.memCanonical _
    memExists := by
      refine Memory.within_writeAll h.memExists fun w hw => ?_
      obtain ⟨p, hp, rfl⟩ := List.mem_map.1 hw
      obtain ⟨-, hy, hx⟩ := State.mem_scopeSites.1 hp
      have hc := State.scopeSites_lane hp
      exact Descriptor.addr_lt (Descriptor.valid_iff_usable.2 hdst) hx hy (by omega) }

/-- So a pass past validation keeps the invariant. -/
theorem State.Inv.applyPass {s : State} (h : s.Inv) (hdst : s.dst.Usable s.params.memBytes) : s.applyPass.Inv := by
  obtain ⟨f, hpass⟩ := s.applyPass_eq
  rw [hpass]
  split
  · exact h.scopeStores hdst f _
  · have hfresh := h.ensureFresh.scopeStores (by simpa using hdst) f s.applyPass.freeIx
    simpa using hfresh

/-- The reset state meets the invariant: its table is stale and its memory empty. -/
theorem State.inv_reset : State.reset.Inv where
  params := by decide
  base := by decide
  delta := by decide
  ca := by decide
  cb := by decide
  win := by decide
  errors := Status.consistent_clearErrors State.reset.status
  cache := nofun
  memCanonical := rfl
  memExists := rfl

/-- Reset keeps the parameters and the memory, and the rest is the reset state's. -/
theorem State.Inv.hwReset {s : State} (h : s.Inv) : s.hwReset.Inv :=
  { State.inv_reset with
    params := h.params
    memCanonical := h.memCanonical
    memExists := h.memExists }

/-! ## Every command, every move -/

theorem State.Inv.execApply {s : State} (h : s.Inv) : ∃ t, exec .apply s = .next t ∧ t.Inv := by
  rcases execApply_cases s with ⟨e, -, hexec⟩ | ⟨hnone, hexec⟩
  · exact ⟨_, hexec, h.raise e⟩
  · exact ⟨_, hexec, (h.applyPass (State.usable_of_applyError hnone)).done⟩

/-- Every command keeps the invariant. -/
theorem State.Inv.exec {s : State} (h : s.Inv) (i : Instr) : ∃ t, exec i s = .next t ∧ t.Inv := by
  cases i with
  | setstrat v =>
    rcases le_or_gt v.toNat 2 with hv | hv
    · obtain ⟨st, rfl⟩ := Strategy.exists_word_eq hv
      exact ⟨_, exec_setstrat_word st s, { h with cache := nofun }⟩
    · exact ⟨_, exec_setstrat_of_gt hv s, h.raise _⟩
  | setscope v =>
    rcases le_or_gt v.toNat 7 with hv | hv
    · exact ⟨_, exec_setscope_of_le hv s, { h with cache := nofun }⟩
    · exact ⟨_, exec_setscope_of_gt hv s, h.raise _⟩
  | setbase v => exact ⟨_, rfl, h.configure fun hv => { h with base := hv, cache := nofun }⟩
  | setdelta v => exact ⟨_, rfl, h.configure fun hv => { h with delta := hv, cache := nofun }⟩
  | seta v => exact ⟨_, rfl, h.configure fun hv => { h with ca := hv, cache := nofun }⟩
  | setb v => exact ⟨_, rfl, h.configure fun hv => { h with cb := hv, cache := nofun }⟩
  | setwin ww wh =>
    exact ⟨_, rfl, h.configure fun hv => { h with win := by simpa using hv, cache := nofun }⟩
  | setdstbase v => exact ⟨_, rfl, { h with }⟩
  | setdstdim w h' => exact ⟨_, rfl, { h with }⟩
  | setdststride v => exact ⟨_, rfl, { h with }⟩
  | setsrcbase v => exact ⟨_, rfl, { h with }⟩
  | setsrcdim w h' => exact ⟨_, rfl, { h with }⟩
  | setsrcstride v => exact ⟨_, rfl, { h with }⟩
  | markdirty => exact ⟨_, rfl, { h with cache := nofun }⟩
  | fresh => exact ⟨_, exec_fresh s, h.ensureFresh.done⟩
  | lutrd idx => exact ⟨_, exec_lutrd idx s, h.ensureFresh.respond _ _⟩
  | rdreg idx =>
    cases hreg : s.readReg idx with
    | none => exact ⟨_, exec_rdreg_of_missing hreg, h.raise _⟩
    | some v => exact ⟨_, exec_rdreg_of_some hreg, h.respond _ _⟩
  | clrerr => exact ⟨_, rfl, { h with errors := Status.consistent_clearErrors s.status }⟩
  | apply => exact h.execApply

/-- So does every word, the illegal ones included. -/
theorem State.Inv.execWord {s : State} (h : s.Inv) (w : CommandWord) : ∃ t, execWord w s = .next t ∧ t.Inv := by
  cases hw : decode w with
  | none => exact ⟨_, execWord_none hw s, h.raise _⟩
  | some i => rw [execWord_some hw]; exact h.exec i

/-- Reset during a command leaves reset registers over a memory in which at most in-scope bytes are new (R272). -/
theorem State.Inv.resetDuring {s : State} (h : s.Inv) (w : CommandWord) : (s.resetDuring w).Inv := by
  unfold State.resetDuring
  split
  next hcut =>
    obtain ⟨-, hnone⟩ := hcut
    exact (h.scopeStores (State.usable_of_applyError hnone) _ _).hwReset
  next => exact h.hwReset

/-- Every move that answers a next state keeps the invariant. -/
theorem State.Inv.hostMove {s t : State} (h : s.Inv) {m : HostMove} (hmove : hostMove m s = .next t) : t.Inv := by
  cases m with
  | command w =>
    obtain ⟨u, hexec, hu⟩ := h.execWord w
    obtain rfl := Host.Outcome.next.inj (hexec.symm.trans hmove)
    exact hu
  | memWrite a v =>
    rcases lt_or_ge a s.params.memBytes with ha | ha
    · obtain rfl := Host.Outcome.next.inj ((hostMove_memWrite_of_lt ha v).symm.trans hmove)
      exact { h with
        memCanonical := Memory.wf_write h.memCanonical a v
        memExists := Memory.within_write h.memExists ha v }
    · cases (hostMove_memWrite_of_ge ha v).symm.trans hmove
  | reset =>
    obtain rfl := Host.Outcome.next.inj hmove
    exact h.hwReset
  | resetDuring w =>
    obtain rfl := Host.Outcome.next.inj hmove
    exact h.resetDuring w

/-- Settles O34: taking the move off the inbox touches nothing the invariant speaks of. -/
theorem stepKeepsTheInvariant : Obligations.StepKeepsTheInvariant := by
  intro s t h hstep
  cases hin : s.inbox with
  | nil =>
    obtain rfl := Host.Outcome.next.inj ((step_idle hin).symm.trans hstep)
    exact h
  | cons m rest =>
    have hrest : ({ s with inbox := rest } : State).Inv := { h with }
    exact hrest.hostMove ((step_move hin).symm.trans hstep)

/-- Settles O35: field by field. -/
theorem resetMeetsTheInvariant : Obligations.ResetMeetsTheInvariant := State.inv_reset

/-- Settles O31: under the invariant the rebuild step leaves the table of the present parameters, fresh or stale. -/
theorem lutrdIsNeverStale : Obligations.LutrdIsNeverStale := by
  intro idx s h
  refine ⟨_, exec_lutrd idx s, ?_⟩
  rw [State.respond_responses, State.ensureFresh_responses, State.lutByte_of_some h.ensureFresh_lut]

end Sys2Proof.Machine
end

section
/-! PROOFS. The port and the reset input (R90, R91, R262, R270 to R272, R290): what one move of the host does, that every
command completes, and that a run stops only at a host write to memory that does not exist. -/

namespace Sys2Proof.Machine

/-! ## Commands and host writes -/

/-- Settles O7: the word at the port is taken off and executed. -/
theorem stepRunsThePresentedCommand : Obligations.StepRunsThePresentedCommand := by
  intro s w rest i hin hw
  rw [step_command hin, execWord_some hw]

/-- Settles O8: the two cases of the host's write, the byte by the read-after-write law. -/
theorem idleAndHostWrites : Obligations.IdleAndHostWrites := by
  refine ⟨fun s hin => step_idle hin, fun s a v rest hin hwf => ⟨fun ha => ?writes, fun ha => ?missing⟩⟩
  case writes =>
    refine ⟨s.mem.write a v, (step_move hin).trans (hostMove_memWrite_of_lt (s := { s with inbox := rest }) ha v), ?_,
      fun b hb => ?_⟩
    · rw [Memory.read_write hwf, if_pos rfl]
    · rw [Memory.read_write hwf, if_neg hb]
  case missing => exact (step_move hin).trans (hostMove_memWrite_of_ge (s := { s with inbox := rest }) ha v)

/-! ## Completion (R290) -/

/-- Settles O37: a command raises an error or answers OK, and neither touches the port or the parameters. -/
theorem everyCommandCompletes : Obligations.EveryCommandCompletes := by
  intro i s
  rcases exec_cases i s with ⟨e, hexec⟩ | ⟨u, d, hexec, hparams, hinbox, -⟩
  · exact ⟨_, hexec, rfl, rfl⟩
  · exact ⟨_, hexec, hinbox, hparams⟩

/-- So does every word, the illegal ones included. -/
theorem execWord_completes (w : CommandWord) (s : State) :
    ∃ t, execWord w s = .next t ∧ t.inbox = s.inbox ∧ t.params = s.params := by
  cases hw : decode w with
  | none => exact ⟨_, execWord_none hw s, rfl, rfl⟩
  | some i => rw [execWord_some hw]; exact everyCommandCompletes i s

theorem State.resetDuring_inbox (s : State) (w : CommandWord) : (s.resetDuring w).inbox = s.inbox := by
  unfold State.resetDuring; split <;> rfl

theorem State.resetDuring_params (s : State) (w : CommandWord) : (s.resetDuring w).params = s.params := by
  unfold State.resetDuring; split <;> rfl

/-- A move that writes only where memory exists completes. -/
theorem hostMove_completes {m : HostMove} {s : State} (h : m.addressable s.params.memBytes = true) :
    ∃ t, hostMove m s = .next t ∧ t.inbox = s.inbox ∧ t.params = s.params := by
  cases m with
  | command w => exact execWord_completes w s
  | memWrite a v => exact ⟨_, hostMove_memWrite_of_lt (of_decide_eq_true h) v, rfl, rfl⟩
  | reset => exact ⟨_, rfl, rfl, rfl⟩
  | resetDuring w => exact ⟨_, rfl, s.resetDuring_inbox w, s.resetDuring_params w⟩

/-- So does a step, and the moves still to come are the ones behind it. -/
theorem step_completes {s : State} (h : ∀ m ∈ s.inbox, m.addressable s.params.memBytes = true) :
    ∃ t, step s = .next t ∧ t.inbox = s.inbox.tail ∧ t.params = s.params := by
  cases hin : s.inbox with
  | nil => exact ⟨s, step_idle hin, hin, rfl⟩
  | cons m rest =>
    rw [hin] at h
    rw [step_move hin]
    exact hostMove_completes (s := { s with inbox := rest }) (h m (by simp))

/-- Settles O36: by induction on the number of steps, each of which leaves addressable moves only. -/
theorem runsNeverStop : Obligations.RunsNeverStop := by
  intro k
  induction k with
  | zero => exact fun s _ => ⟨s, rfl⟩
  | succ k ih =>
    intro s h
    obtain ⟨t, hstep, hinbox, hparams⟩ := step_completes h
    refine State.safeRun_succ hstep (ih t fun m hm => ?_)
    rw [hparams]
    exact h m (List.mem_of_mem_tail (hinbox ▸ hm))

/-! ## Reset (R270 to R272) -/

/-- After reset every register reads as in the reset state. -/
theorem State.hwReset_readReg (s : State) (idx : Byte) : s.hwReset.readReg idx = State.reset.readReg idx := rfl

/-- Settles O10: reset leaves what lies outside the registers and the table; the reset values are read off the register
map. -/
theorem resetGivesTheResetValues : Obligations.ResetGivesTheResetValues :=
  ⟨fun s rest hin => ⟨_, step_move hin, State.hwReset_readReg _, rfl, rfl, rfl, rfl, rfl⟩, by decide⟩

theorem State.resetDuring_responses (s : State) (w : CommandWord) : (s.resetDuring w).responses = s.responses := by
  unfold State.resetDuring; split <;> rfl

theorem State.resetDuring_lut (s : State) (w : CommandWord) : (s.resetDuring w).lut = none := by
  unfold State.resetDuring; split <;> rfl

theorem State.resetDuring_readReg (s : State) (w : CommandWord) (idx : Byte) :
    (s.resetDuring w).readReg idx = State.reset.readReg idx := by
  unfold State.resetDuring; split <;> rfl

/-- Reset during an `APPLY` past validation cuts its stores short; any other command has left no trace (R272). -/
theorem State.resetDuring_mem_cases (s : State) (w : CommandWord) :
    (s.resetDuring w).mem = s.mem ∨
    (decode w = some .apply ∧ s.applyError = none ∧ (s.resetDuring w).mem = s.cutShort s.applyPass.mem) := by
  unfold State.resetDuring
  split
  next hcut => exact .inr ⟨hcut.1, hcut.2, rfl⟩
  next => exact .inl rfl

/-- A pass cut short has left each byte old or new, and new only in scope. -/
theorem State.read_cutShort {s : State} (hwf : s.mem.wf = true) (hstride : 4 * s.dst.width ≤ s.dst.stride)
    (after : Memory) (a : Nat) :
    (s.cutShort after).read a = s.mem.read a ∨ (s.InScope a ∧ (s.cutShort after).read a = after.read a) := by
  obtain ⟨hscope, hother⟩ := State.read_scopeStores hwf hstride fun p =>
    if Config.freeResetLands s.freeIx (s.dst.addr p) then after.read (s.dst.addr p) else s.mem.read (s.dst.addr p)
  by_cases ha : s.InScope a
  · obtain ⟨p, hp, rfl⟩ := State.inScope_iff.1 ha
    have hread : (s.cutShort after).read (s.dst.addr p) = _ := hscope p hp
    rw [hread]
    split
    · exact .inr ⟨ha, rfl⟩
    · exact .inl rfl
  · exact .inl (hother a fun p hp heq => ha (State.inScope_iff.2 ⟨p, hp, heq⟩))

/-- Settles O11: the registers by the reset, the bytes by the store cut short. -/
theorem resetDuringACommand : Obligations.ResetDuringACommand := by
  intro s w rest hin hwf
  refine ⟨_, step_move hin, State.resetDuring_responses _ w, State.resetDuring_readReg _ w, State.resetDuring_lut _ w,
    fun a => ?_⟩
  rcases State.resetDuring_mem_cases { s with inbox := rest } w with hmem | ⟨hw, hnone, hmem⟩ <;> rw [hmem]
  · exact .inl rfl
  · have hstride := (State.usable_of_applyError hnone).row_le_stride
    refine (State.read_cutShort hwf hstride _ a).imp id fun ⟨ha, hread⟩ => ?_
    exact ⟨hw, hnone, ha, _, exec_apply_of_none hnone, hread⟩

end Sys2Proof.Machine
end

section
/-! PROOFS. The shape of the logarithmic table (R152, L3 to L6): each property is one of the real number `logValue` under
the monotone clamp of its floor. With `p = i/255` and `e = base - 1` the argument is `1 + p*e`, so the shape of the curve is
that of `log (1 + p*e) / log (1 + e)` as a function of `p`. -/

namespace Sys2Proof.Machine

/-! ## Entries -/

/-- The entry of a legal base is the clamp of the real value's floor. -/
theorem logLut_entry {b : Word} (hpos : 0 < b.toInt) (hone : b ≠ 0x00010000#32) (d : Word) (i : Byte) :
    (logLut b d).entry i = clamp8 ⌊logValue b.toNat d.toInt i.toNat⌋ := by
  rw [logLut, Lut.entry_ofFn, logEntry_eq_clamp8_floor hpos hone (Nat.le_of_lt_succ i.isLt)]

/-- The clamp of a byte's value is the byte. -/
theorem clamp8_byte (i : Byte) : clamp8 (i.toNat : Int) = i := by
  have hi : (i.toNat : Int) ≤ 255 := by have := i.isLt; omega
  apply BitVec.eq_of_toNat_eq
  exact_mod_cast clamp8_toNat_of_byte (Int.natCast_nonneg _) hi

theorem logArgReal_eq {bv i : Nat} (hi : i ≤ 255) :
    logArgReal bv i = 1 + (i / 255 : ℝ) * (logBaseReal bv - 1) := by
  rw [logArgReal, logArg_cast hi, logBaseReal]
  push_cast
  ring

theorem logBaseReal_pos {bv : Nat} (h : 0 < bv) : 0 < logBaseReal bv := div_pos (Nat.cast_pos.mpr h) (by norm_num)

theorem index_div_le_one {i : Nat} (hi : i ≤ 255) : (i / 255 : ℝ) ≤ 1 := by
  rw [div_le_one (by norm_num)]
  exact_mod_cast hi

/-! ## L3: the table does not fall -/

/-- The argument runs from 1 to the base, so the ratio of the logarithms rises for a base on either side of 1. -/
theorem log_ratio_mono {bv i j : Nat} (hbv : 0 < bv) (hij : i ≤ j) (hj : j ≤ 255) :
    Real.log (logArgReal bv i) / Real.log (logBaseReal bv) ≤ Real.log (logArgReal bv j) / Real.log (logBaseReal bv) := by
  have hp : (i / 255 : ℝ) ≤ j / 255 := by gcongr
  rcases le_total 1 (logBaseReal bv) with h | h
  · refine div_le_div_of_nonneg_right (Real.log_le_log (logArgReal_pos hbv (hij.trans hj)) ?_) (Real.log_nonneg h)
    rw [logArgReal_eq (hij.trans hj), logArgReal_eq hj]
    nlinarith
  · refine div_le_div_of_nonpos_of_le (Real.log_nonpos (logBaseReal_pos hbv).le h) ?_
    refine Real.log_le_log (logArgReal_pos hbv hj) ?_
    rw [logArgReal_eq (hij.trans hj), logArgReal_eq hj]
    nlinarith

/-- Settles O22: the real value rises with the index, and the floor and the clamp keep the order. -/
theorem logLutIsMonotone : Obligations.LogLutIsMonotone := by
  intro b d i j hpos hone hij
  obtain ⟨-, hbv, -⟩ := toNat_of_baseLegal hpos hone
  rw [logLut_entry hpos hone, logLut_entry hpos hone]
  refine clamp8_toNat_mono (Int.floor_mono ?_)
  have hratio := log_ratio_mono hbv hij (Nat.le_of_lt_succ j.isLt)
  rw [logValue, logValue]
  linarith

/-! ## L4: the end points -/

theorem logBaseReal_log_ne_zero {bv : Nat} (hbv : 0 < bv) (hone : bv ≠ 65536) : Real.log (logBaseReal bv) ≠ 0 := by
  rcases Nat.lt_or_gt_of_ne hone with h | h
  · exact (Real.log_neg (logBaseReal_pos hbv) (logBaseReal_lt_one h)).ne
  · exact (Real.log_pos (one_lt_logBaseReal h)).ne'

/-- At index 0 the argument is 1 and only the shift is left. -/
theorem logValue_zero (bv : Nat) (dv : Int) : logValue bv dv 0 = dv / (512 : Nat) := by
  rw [logValue, logArgReal_eq (by norm_num)]
  simp

/-- At index 255 the argument is the base itself. -/
theorem logValue_last {bv : Nat} (hbv : 0 < bv) (hone : bv ≠ 65536) (dv : Int) :
    logValue bv dv 255 = dv / (512 : Nat) + (255 : Int) := by
  have harg : logArgReal bv 255 = logBaseReal bv := by
    rw [logArgReal_eq le_rfl]
    push_cast
    ring
  rw [logValue, harg, div_self (logBaseReal_log_ne_zero hbv hone)]
  push_cast
  ring

theorem floor_shift (dv : Int) : ⌊(dv : ℝ) / (512 : Nat)⌋ = dv / 512 := by
  rw [Int.floor_div_natCast, Int.floor_intCast]
  rfl

theorem logLut_entry_zero {b : Word} (hpos : 0 < b.toInt) (hone : b ≠ 0x00010000#32) (d : Word) :
    (logLut b d).entry 0#8 = clamp8 (d.toInt / 512) := by
  have h0 : (0#8 : Byte).toNat = 0 := rfl
  rw [logLut_entry hpos hone, h0, logValue_zero, floor_shift]

theorem logLut_entry_last {b : Word} (hpos : 0 < b.toInt) (hone : b ≠ 0x00010000#32) (d : Word) :
    (logLut b d).entry 255#8 = clamp8 (255 + d.toInt / 512) := by
  obtain ⟨-, hbv, hne⟩ := toNat_of_baseLegal hpos hone
  have h255 : (255#8 : Byte).toNat = 255 := rfl
  rw [logLut_entry hpos hone, h255, logValue_last hbv hne, Int.floor_add_intCast, floor_shift, add_comm]

/-- Settles O23: the two ends of the argument; without a shift they are 0 and 255. -/
theorem logLutEndPoints : Obligations.LogLutEndPoints := fun _ d hpos hone =>
  ⟨logLut_entry_zero hpos hone d, logLut_entry_last hpos hone d, logLut_entry_zero hpos hone _,
    logLut_entry_last hpos hone _⟩

/-! ## L5: the side of the identity -/

/-- The logarithm is concave: on the segment from 1 to `1 + e` it lies on or above its chord, also for a base below 1. -/
theorem mul_log_one_add_le_log {p e : ℝ} (hp0 : 0 ≤ p) (hp1 : p ≤ 1) (he : -1 < e) :
    p * Real.log (1 + e) ≤ Real.log (1 + p * e) := by
  rw [← Real.log_rpow (by linarith)]
  exact Real.log_le_log (Real.rpow_pos_of_pos (by linarith) p) (rpow_one_add_le_one_add_mul_self he.le hp0 hp1)

/-- The chord's bound for the model's argument and base. -/
theorem index_mul_log_base_le {bv i : Nat} (hbv : 0 < bv) (hi : i ≤ 255) :
    (i / 255 : ℝ) * Real.log (logBaseReal bv) ≤ Real.log (logArgReal bv i) := by
  have hpos := logBaseReal_pos hbv
  have hchord := mul_log_one_add_le_log (p := i / 255) (e := logBaseReal bv - 1) (by positivity) (index_div_le_one hi)
    (by linarith)
  rwa [add_sub_cancel, ← logArgReal_eq hi] at hchord

theorem le_logValue_of_one_lt {bv i : Nat} (h : 65536 < bv) (hi : i ≤ 255) : (i : ℝ) ≤ logValue bv 0 i := by
  have hratio := (le_div_iff₀ (Real.log_pos (one_lt_logBaseReal h))).mpr (index_mul_log_base_le (by omega) hi)
  rw [logValue]
  push_cast
  linarith

theorem logValue_le_of_lt_one {bv i : Nat} (hbv : 0 < bv) (h : bv < 65536) (hi : i ≤ 255) : logValue bv 0 i ≤ i := by
  have hlog := Real.log_neg (logBaseReal_pos hbv) (logBaseReal_lt_one h)
  have hratio := (div_le_iff_of_neg hlog).mpr (index_mul_log_base_le hbv hi)
  rw [logValue]
  push_cast
  linarith

/-- Settles O24: dividing the chord's bound by the base's logarithm keeps it for a base above 1 and turns it round below. -/
theorem logLutShape : Obligations.LogLutShape := by
  intro b i hpos hone
  obtain ⟨hcast, hbv, -⟩ := toNat_of_baseLegal hpos hone
  have hi : i.toNat ≤ 255 := Nat.le_of_lt_succ i.isLt
  have hzero : (0#32 : Word).toInt = 0 := by decide
  have hbyte : (clamp8 (i.toNat : Int)).toNat = i.toNat := by rw [clamp8_byte]
  rw [logLut_entry hpos hone, hzero]
  constructor
  · intro h
    have hle : (i.toNat : Int) ≤ ⌊logValue b.toNat 0 i.toNat⌋ :=
      Int.le_floor.mpr (by exact_mod_cast le_logValue_of_one_lt (by omega) hi)
    exact hbyte.symm.trans_le (clamp8_toNat_mono hle)
  · intro h
    have hle : ⌊logValue b.toNat 0 i.toNat⌋ ≤ (i.toNat : Int) := by
      have hfloor := Int.floor_mono (logValue_le_of_lt_one hbv (by omega) hi)
      rwa [Int.floor_natCast] at hfloor
    exact (clamp8_toNat_mono hle).trans_eq hbyte

/-! ## L6: the settings next to 1 -/

/-- The chord's bound is strict inside the segment. -/
theorem mul_log_one_add_lt_log {p e : ℝ} (hp0 : 0 < p) (hp1 : p < 1) (he : -1 < e) (hne : e ≠ 0) :
    p * Real.log (1 + e) < Real.log (1 + p * e) := by
  rw [← Real.log_rpow (by linarith)]
  exact Real.log_lt_log (Real.rpow_pos_of_pos (by linarith) p) (rpow_one_add_lt_one_add_mul_self he.le hne hp0 hp1)

theorem logArgReal_belowOne {i : Nat} (hi : i ≤ 255) : logArgReal 65535 i = 1 + (i / 255 : ℝ) * (-1 / 65536) := by
  rw [logArgReal_eq hi, logBaseReal]
  norm_num

/-- The lower bound by tangents: `log x ≤ x - 1` for the argument, `1 - 1/x ≤ log x` for the base. -/
theorem log_arg_belowOne_le {i : Nat} (h0 : 0 < i) (hi : i ≤ 255) :
    Real.log (1 + (i / 255 : ℝ) * (-1 / 65536)) ≤ ((i - 1) / 255 : ℝ) * Real.log (1 + -1 / 65536) := by
  have hi1 : (1 : ℝ) ≤ i := by exact_mod_cast h0
  have hi255 : (i : ℝ) ≤ 255 := by exact_mod_cast hi
  have harg := Real.log_le_sub_one_of_pos (show 0 < 1 + (i / 255 : ℝ) * (-1 / 65536) by linarith)
  have hbase : (-1 / 65535 : ℝ) ≤ Real.log (1 + -1 / 65536) :=
    le_trans (by norm_num) (Real.one_sub_inv_le_log_of_pos (show (0 : ℝ) < 1 + -1 / 65536 by norm_num))
  calc Real.log (1 + (i / 255 : ℝ) * (-1 / 65536)) ≤ (i / 255 : ℝ) * (-1 / 65536) := by linarith
    _ ≤ ((i - 1) / 255 : ℝ) * (-1 / 65535) := by linarith
    _ ≤ ((i - 1) / 255 : ℝ) * Real.log (1 + -1 / 65536) :=
      mul_le_mul_of_nonneg_left hbase (div_nonneg (by linarith) (by norm_num))

/-- At the base `65535 / 65536` the real value of an inner entry lies in `[i - 1, i)`. -/
theorem floor_logValue_belowOne {i : Nat} (h0 : 0 < i) (h255 : i < 255) : ⌊logValue 65535 0 i⌋ = (i : Int) - 1 := by
  have hbase : logBaseReal 65535 = 1 + -1 / 65536 := by rw [logBaseReal]; norm_num
  have hp0 : (0 : ℝ) < i / 255 := by positivity
  have hp1 : (i / 255 : ℝ) < 1 := (div_lt_one (by norm_num)).mpr (by exact_mod_cast h255)
  have hlog : Real.log (1 + -1 / 65536) < 0 := Real.log_neg (by norm_num) (by norm_num)
  have hhigh := (div_lt_iff_of_neg hlog).mpr (mul_log_one_add_lt_log hp0 hp1 (by norm_num) (by norm_num))
  have hlow := (le_div_iff_of_neg hlog).mpr (log_arg_belowOne_le h0 h255.le)
  rw [Int.floor_eq_iff, logValue, logArgReal_belowOne h255.le, hbase]
  push_cast
  constructor <;> linarith

/-- Settles O25: the identity setting is `logLut_nearOne_entry`; below 1 the clamp keeps `i - 1`. -/
theorem logLutIdentitySetting : Obligations.LogLutIdentitySetting := by
  refine ⟨logLut_nearOne_entry, fun i h0 h255 => ?_⟩
  have hfloor : ⌊logValue (0x0000FFFF#32 : Word).toNat (0#32 : Word).toInt i.toNat⌋ = (i.toNat : Int) - 1 :=
    floor_logValue_belowOne h0 h255
  have hbyte := clamp8_toNat_of_byte (v := (i.toNat : Int) - 1) (by omega) (by omega)
  rw [logLut_entry (by decide) (by decide), hfloor]
  omega

end Sys2Proof.Machine
end

section
/-! PROOFS. The pieces of the local pass (R203, R206 to R209): the blur's contract and the laws of the two combine
functions. -/

namespace Sys2Proof.Machine

/-! ## The blur's contract (R203) -/

/-- Where the contract fixes a lane it fixes it to the image's own bytes. -/
theorem blur_of_keeps {w h ww wh : Nat} {img : Img} {c : Nat} (hkeeps : blurKeeps w h ww wh img c = true) (x y : Nat) :
    blur w h ww wh img x y c = img x y c := if_pos hkeeps

/-- P4. -/
theorem blur_unit_window (w h : Nat) (img : Img) (x y c : Nat) : blur w h 1 1 img x y c = img x y c :=
  blur_of_keeps rfl x y

/-- P3. -/
theorem blur_of_uniform {w h ww wh : Nat} {img : Img} {c : Nat} {v : Byte}
    (hv : ∀ x y, x < w → y < h → img x y c = v) {x y : Nat} (hx : x < w) (hy : y < h) :
    blur w h ww wh img x y c = v := by
  have huniform : laneUniform w h img c = true := laneUniform_iff.2 fun y' hy' x' hx' => by
    rw [hv x' y' hx' hy', hv 0 0 (by omega) (by omega)]
  rw [blur_of_keeps (by simp [blurKeeps, huniform]), hv x y hx hy]

/-- `img'` has the bytes of `img` within the frame. -/
def Img.AgreesOn (w h : Nat) (img img' : Img) : Prop :=
  ∀ x y c, x < w → y < h → c ≤ 3 → img' x y c = img x y c

theorem Img.AgreesOn.laneUniform_eq {w h : Nat} {img img' : Img} (e : img.AgreesOn w h img') {c : Nat} (hc : c ≤ 3) :
    laneUniform w h img' c = laneUniform w h img c := by
  rw [Bool.eq_iff_iff, laneUniform_iff, laneUniform_iff]
  refine forall₂_congr fun y hy => forall₂_congr fun x hx => ?_
  rw [e x y c hx hy hc, e 0 0 c (by omega) (by omega) hc]

/-- P1: the answer depends on the image within the frame only. -/
theorem Img.AgreesOn.blur_eq {w h : Nat} {img img' : Img} (e : img.AgreesOn w h img') (ww wh : Nat) {x y c : Nat}
    (hx : x < w) (hy : y < h) (hc : c ≤ 3) : blur w h ww wh img' x y c = blur w h ww wh img x y c := by
  have hkeeps : blurKeeps w h ww wh img' c = blurKeeps w h ww wh img c := by
    rw [blurKeeps, blurKeeps, e.laneUniform_eq hc]
  simp only [blur, hkeeps, packed_congr e, e x y c hx hy hc]

/-- So does the lane sum. -/
theorem Img.AgreesOn.laneSum_eq {w h : Nat} {img img' : Img} (e : img.AgreesOn w h img') {c : Nat} (hc : c ≤ 3) :
    laneSum w h img' c = laneSum w h img c := by
  rw [laneSum_eq_sum, laneSum_eq_sum]
  refine Finset.sum_congr rfl fun y hy => Finset.sum_congr rfl fun x hx => ?_
  rw [e x y c (Finset.mem_range.1 hx) (Finset.mem_range.1 hy) hc]

/-- Settles O56: P3, P4 and P1 in turn. -/
theorem blurMeetsItsContract : Obligations.BlurMeetsItsContract := fun w h ww wh img _ _ _ _ =>
  ⟨fun _ _ _ hv _ _ hx hy => blur_of_uniform hv hx hy, fun x y c _ _ _ => blur_unit_window w h img x y c,
    fun _ e _ _ _ hx hy hc => Img.AgreesOn.blur_eq e ww wh hx hy hc⟩

/-! ## The flat-field combine (R206, R207) -/

/-- F1: the guard. -/
theorem ffCombine_zero_reference (s : Byte) (sum n : Nat) : ffCombine s 0#8 sum n = s := if_pos rfl

/-- A zero numerator gives 0 away from the guard. -/
theorem ffCombine_eq_zero {s r : Byte} {sum n : Nat} (hr : r ≠ 0#8) (h : s.toNat * sum = 0) :
    ffCombine s r sum n = 0#8 := by
  apply BitVec.eq_of_toNat_eq
  rw [ffCombine_toNat hr, h, Nat.zero_div]
  rfl

/-- A quotient above 255 saturates. -/
theorem ffCombine_saturates {s r : Byte} {sum n : Nat} (hr : r ≠ 0#8) (hn : 1 ≤ n)
    (h : 256 * r.toNat * n ≤ s.toNat * sum) : ffCombine s r sum n = 255#8 := by
  have hr0 : 0 < r.toNat := Nat.pos_of_ne_zero fun h0 => hr (BitVec.eq_of_toNat_eq h0)
  have hquot : 256 ≤ s.toNat * sum / (r.toNat * n) := by
    rwa [Nat.le_div_iff_mul_le (Nat.mul_pos hr0 hn), ← Nat.mul_assoc]
  apply BitVec.eq_of_toNat_eq
  rw [ffCombine_toNat hr, Nat.min_eq_left (by omega)]
  rfl

theorem ffCombine_mono {s s' r : Byte} (hr : r ≠ 0#8) (h : s.toNat ≤ s'.toNat) (sum n : Nat) :
    (ffCombine s r sum n).toNat ≤ (ffCombine s' r sum n).toNat := by
  rw [ffCombine_toNat hr, ffCombine_toNat hr]
  exact min_le_min_left 255 (Nat.div_le_div_right (Nat.mul_le_mul_right sum h))

/-- F3 at one byte: source and reference are the lane's value `v`, and its sum is `n * v`. -/
theorem ffCombine_uniform (v : Byte) {n : Nat} (hn : 1 ≤ n) : ffCombine v v (n * v.toNat) n = v := by
  by_cases hv : v = 0#8
  · subst hv
    exact ffCombine_zero_reference _ _ _
  · have hv0 : 0 < v.toNat := Nat.pos_of_ne_zero fun h0 => hv (BitVec.eq_of_toNat_eq h0)
    have hquot : v.toNat * (n * v.toNat) / (v.toNat * n) = v.toNat := by
      rw [← Nat.mul_assoc, Nat.mul_div_cancel_left _ (Nat.mul_pos hv0 hn)]
    apply BitVec.eq_of_toNat_eq
    rw [ffCombine_toNat hv, hquot, Nat.min_eq_right (Nat.le_of_lt_succ v.isLt)]

/-- Settles O52: by the quotient away from the guard; a zero source byte gives 0 on either side of it. -/
theorem flatFieldCombineLaws : Obligations.FlatFieldCombineLaws := by
  intro s s' r sum n hn _
  refine ⟨fun hr => if_pos hr, ?zeroSource, fun hr => ffCombine_eq_zero hr (Nat.mul_zero _),
    fun hr h => ffCombine_saturates hr hn h, fun hr h => ffCombine_mono hr h sum n⟩
  case zeroSource =>
    by_cases hr : r = 0#8
    · exact if_pos hr
    · exact ffCombine_eq_zero hr (Nat.zero_mul _)

/-! ## The contrast combine (R208, R209) -/

/-- A flat neighbourhood gives the byte itself as index. -/
theorem ksiIndex_self (s : Byte) : ksiIndex s s = s := by
  have hdiff : 2 * (s.toNat : Int) - s.toNat = s.toNat := by omega
  rw [ksiIndex, hdiff, clamp8_byte]

theorem ksiIndex_mono {s s' : Byte} (h : s.toNat ≤ s'.toNat) (r : Byte) :
    (ksiIndex s r).toNat ≤ (ksiIndex s' r).toNat :=
  clamp8_toNat_mono (by omega : 2 * (s.toNat : Int) - r.toNat ≤ 2 * (s'.toNat : Int) - r.toNat)

/-- Settles O53: the index rises with the source byte and the legal table with the index; the extremes are the clamp's. -/
theorem ksiCombineLaws : Obligations.KsiCombineLaws := by
  intro a bo s s' r ha
  obtain ⟨-, -, hmono, -⟩ := conLutProperties
  refine ⟨fun h => hmono a bo _ _ ha (ksiIndex_mono h r), conLut_zero_zero_entry _, ?black, by decide, fun h => ?dark,
    ksiIndex_self s⟩
  case black => exact clamp8_of_nonpos (by have h0 : (0#8 : Byte).toNat = 0 := rfl; omega)
  case dark => exact clamp8_of_nonpos (by have h255 : (255#8 : Byte).toNat = 255 := rfl; omega)

end Sys2Proof.Machine
end

section
/-! PROOFS. `APPLY` beyond its bytes (R66, R71, R181, R207, R209): what a partial overlap leaves alone, uniform lanes, and
the parts of the state and of the memory that a pass does not read. -/

namespace Sys2Proof.Machine

/-! ## Partial overlap (R71) -/

/-- With a partial overlap the local pass stores free bytes in scope and numbers the draw. -/
theorem State.applyPass_partial {s : State} (hlocal : s.strat ≠ .log) (hpartial : ¬ s.BuffersApart) :
    s.applyPass = { s.passState with
      mem := s.mem.writeAll (s.scopeSites.map fun p => (s.dst.addr p, Config.freeOverlapByte s.freeIx (s.dst.addr p))),
      freeIx := s.freeIx + 1 } := by
  have hpartial' : ¬ s.passState.BuffersApart := by simpa [State.BuffersApart] using hpartial
  have hfree : s.passState.freeIx = s.freeIx := by rcases s.passState_cases with h | h <;> simp [h]
  rw [State.applyPass_of_local hlocal, State.localPass_partial hpartial', hfree, State.passState_mem,
    State.passState_scopeSites, State.passState_dst]

theorem State.read_applyPass_partial {s : State} (hlocal : s.strat ≠ .log) (hready : s.LocalReady)
    (hpartial : ¬ s.BuffersApart) (hwf : s.mem.wf = true) {p : Site} (hp : p ∈ s.scopeSites) :
    s.applyPass.mem.read (s.dst.addr p) = Config.freeOverlapByte s.freeIx (s.dst.addr p) := by
  rw [State.applyPass_partial hlocal hpartial]
  exact (State.read_scopeStores hwf hready.row_le_stride
    fun p => Config.freeOverlapByte s.freeIx (s.dst.addr p)).1 p hp

/-- Settles O46: the overlap is not detected, and the frame is the one every pass has. -/
theorem partialOverlapStaysInScope : Obligations.PartialOverlapStaysInScope := by
  intro s hlocal hready hpartial hwf
  have hstate : (if s.strat = .contrast then s.ensureFresh else s) = s.passState := by
    cases hstrat : s.strat with
    | log => exact absurd hstrat hlocal
    | flatField => rw [if_neg nofun, State.passState_flatField hstrat]
    | contrast => rw [if_pos rfl, State.passState_of_ne (by simp [hstrat])]
  refine ⟨s.applyPass.mem, ?_, fun a ha => State.applyPass_frame hwf ha⟩
  rw [hstate, exec_apply_of_none (State.applyError_none_local hlocal hready), State.done, State.respond,
    State.applyPass_partial hlocal hpartial, State.passState_responses]

/-! ## Uniform lanes and unit windows (R207, R209) -/

/-- A lane with one value has that value as its blurred reference (P3). -/
theorem State.reference_of_uniform {s : State} {c : Nat} {v : Byte}
    (hv : ∀ x y, x < s.dst.width → y < s.dst.height → s.workingCopy x y c = v) {x y : Nat} (hx : x < s.dst.width)
    (hy : y < s.dst.height) : s.reference ⟨x, y, c⟩ = v := blur_of_uniform hv hx hy

/-- Its sum is the pixel count times the value. -/
theorem laneSum_of_uniform {w h : Nat} {img : Img} {c : Nat} {v : Byte}
    (hv : ∀ x y, x < w → y < h → img x y c = v) : laneSum w h img c = w * h * v.toNat := by
  have hrow : ∀ y ∈ Finset.range h, ∑ x ∈ Finset.range w, (img x y c).toNat = w * v.toNat := fun y hy => by
    rw [Finset.sum_congr rfl fun x hx => by rw [hv x y (Finset.mem_range.1 hx) (Finset.mem_range.1 hy)]]
    simp
  rw [laneSum_eq_sum, Finset.sum_congr rfl hrow, Finset.sum_const, Finset.card_range, smul_eq_mul]
  ring

/-- Settles O51: at every pixel source and reference are `v`, and the sum is `v` times the pixel count. -/
theorem flatFieldKeepsAUniformLane : Obligations.FlatFieldKeepsAUniformLane := by
  intro s c v hstrat hready hapart hwf _ hscope hv
  have hlocal : s.strat ≠ .log := by simp [hstrat]
  refine ⟨_, exec_apply_apart hlocal hready hapart, fun x y hx hy => ?_⟩
  have hout := State.read_applyPass_apart hlocal hready hapart hwf (State.mem_scopeSites_mk hx hy hscope)
  have hsource : s.mem.read (s.src.addr ⟨x, y, c⟩) = v := hv x y hx hy
  rw [State.localByte_flatField hstrat, State.reference_of_uniform hv hx hy, laneSum_of_uniform hv, hsource,
    ffCombine_uniform v (Nat.mul_pos (by omega) (by omega))] at hout
  exact hout

/-- Where the reference is the source byte itself, the contrast pass is the plain table map (S2). -/
theorem State.read_applyPass_contrast_of_reference {s : State} (hstrat : s.strat = .contrast) (hready : s.LocalReady)
    (hapart : s.BuffersApart) (hwf : s.mem.wf = true) {p : Site} (hp : p ∈ s.scopeSites)
    (href : s.reference p = s.mem.read (s.src.addr p)) :
    s.localApplied.mem.read (s.dst.addr p) = s.localApplied.lutByte (s.mem.read (s.src.addr p)) := by
  have hout := State.read_applyPass_apart (by simp [hstrat]) hready hapart hwf hp
  have htable : s.strat ≠ .flatField := by simp [hstrat]
  have hlut : s.localApplied.lutByte = s.passState.lutByte := rfl
  rw [State.localByte_of_ne htable, href, ksiIndex_self, ← State.passState_of_ne htable, ← hlut] at hout
  exact hout

/-- Settles O54: a unit window blurs to the source (P4). -/
theorem unitWindowContrastIsTheTableMap : Obligations.UnitWindowContrastIsTheTableMap := by
  intro s hstrat hready hapart hwf hwin
  refine ⟨_, exec_apply_apart (by simp [hstrat]) hready hapart, fun x y c hx hy _ hscope => ?_⟩
  refine State.read_applyPass_contrast_of_reference hstrat hready hapart hwf (State.mem_scopeSites_mk hx hy hscope) ?_
  rw [State.reference, hwin]
  exact blur_unit_window _ _ _ x y c

/-- Settles O60: a uniform lane blurs to its own value (P3). -/
theorem uniformLaneContrastIsTheTableMap : Obligations.UniformLaneContrastIsTheTableMap := by
  intro s c v hstrat hready hapart hwf _ hscope hv
  refine ⟨_, exec_apply_apart (by simp [hstrat]) hready hapart, fun x y hx hy => ?_⟩
  have hsource : s.mem.read (s.src.addr ⟨x, y, c⟩) = v := hv x y hx hy
  have hout := State.read_applyPass_contrast_of_reference hstrat hready hapart hwf (State.mem_scopeSites_mk hx hy hscope)
    ((State.reference_of_uniform hv hx hy).trans hsource.symm)
  rw [hsource] at hout
  exact hout

/-! ## What a pass does not read -/

/-- The three source registers replaced. -/
def State.withSource (s : State) (b d st : Word) : State := { s with srcBase := b, srcDim := d, srcStride := st }

theorem State.withSource_ensureFresh (s : State) (b d st : Word) :
    (s.withSource b d st).ensureFresh = s.ensureFresh.withSource b d st := by
  rcases s.ensureFresh_cases with ⟨h, e⟩ | ⟨h, e⟩ <;> rw [e]
  · exact State.ensureFresh_of_fresh h
  · exact State.ensureFresh_of_dirty h

/-- The global pass has no use of the source (R181). -/
theorem State.withSource_applyPass {s : State} (hlog : s.strat = .log) (b d st : Word) :
    (s.withSource b d st).applyPass = s.applyPass.withSource b d st := by
  have hlog' : (s.withSource b d st).strat = .log := hlog
  rw [State.applyPass, State.applyPass, hlog, hlog', State.withSource_ensureFresh]
  rfl

/-- Settles O57: neither the check nor the pass has a use of the source, nor has the error's record. -/
theorem logIgnoresTheSource : Obligations.LogIgnoresTheSource := by
  intro s b d st hlog
  have hcheck : (s.withSource b d st).applyError = s.applyError := by
    rw [State.applyError, State.applyError, if_pos hlog]
    exact if_pos hlog
  rcases execApply_cases s with ⟨e, herror, hexec⟩ | ⟨hnone, hexec⟩
  · exact ⟨_, hexec, exec_apply_of_some (hcheck.trans herror)⟩
  · refine ⟨_, hexec, (exec_apply_of_none (hcheck.trans hnone)).trans ?_⟩
    rw [State.withSource_applyPass hlog]
    rfl

/-- The table and DIRTY replaced. -/
def State.withTable (s : State) (l : Option Lut) (dirty : Bool) : State :=
  { s with lut := l, status := { s.status with dirty := dirty } }

theorem State.withTable_raise (s : State) (e : ErrorCode) (l : Option Lut) (dirty : Bool) :
    (s.withTable l dirty).raise e = (s.raise e).withTable l dirty := by
  cases e <;> rfl

/-- The flat-field pass has no use of the table or of DIRTY (F2). -/
theorem State.withTable_applyPass {s : State} (hstrat : s.strat = .flatField) (l : Option Lut) (dirty : Bool) :
    (s.withTable l dirty).applyPass = s.applyPass.withTable l dirty := by
  have hstrat' : (s.withTable l dirty).strat = .flatField := hstrat
  have hlocal : s.strat ≠ .log := by simp [hstrat]
  by_cases hapart : s.BuffersApart
  · have hstore : (s.withTable l dirty).localStore = s.localStore := by
      funext p
      rw [State.localStore, State.localStore, State.localByte_flatField hstrat, State.localByte_flatField hstrat']
      rfl
    rw [State.applyPass_apart hlocal hapart, State.applyPass_apart (s := s.withTable l dirty) hlocal hapart, hstore,
      State.passState_flatField hstrat, State.passState_flatField hstrat']
    rfl
  · rw [State.applyPass_partial hlocal hapart, State.applyPass_partial (s := s.withTable l dirty) hlocal hapart,
      State.passState_flatField hstrat, State.passState_flatField hstrat']
    rfl

/-- So `APPLY` under FLATFIELD does the same whatever they are. -/
theorem exec_apply_withTable {s t : State} (hstrat : s.strat = .flatField) (hexec : exec .apply s = .next t)
    (l : Option Lut) (dirty : Bool) : exec .apply (s.withTable l dirty) = .next (t.withTable l dirty) := by
  have hcheck : (s.withTable l dirty).applyError = s.applyError := rfl
  rcases execApply_cases s with ⟨e, herror, hexec'⟩ | ⟨hnone, hexec'⟩
  · obtain rfl := Host.Outcome.next.inj (hexec'.symm.trans hexec)
    rw [exec_apply_of_some (hcheck.trans herror), State.withTable_raise]
  · obtain rfl := Host.Outcome.next.inj (hexec'.symm.trans hexec)
    rw [exec_apply_of_none (hcheck.trans hnone), State.withTable_applyPass hstrat]
    rfl

/-- Settles O58: under FLATFIELD `APPLY` is no EnsureFresh caller, so it keeps the table, DIRTY and the counter. -/
theorem flatFieldIgnoresTheTable : Obligations.FlatFieldIgnoresTheTable := by
  intro s l dirty hstrat
  have hcaller : s.callsEnsureFresh .apply = false := by simp [State.callsEnsureFresh, hstrat]
  obtain ⟨t, hexec, hlut, hrbcnt, hdirty⟩ := exec_apply_keepsTable hcaller
  exact ⟨t, hexec, hlut, hdirty.trans (Bool.or_false _), hrbcnt, exec_apply_withTable hstrat hexec l dirty⟩

/-! ## Memory outside the footprints (R66) -/

/-- The memory replaced. -/
def State.withMem (s : State) (m : Memory) : State := { s with mem := m }

theorem State.withMem_ensureFresh (s : State) (m : Memory) :
    (s.withMem m).ensureFresh = s.ensureFresh.withMem m := by
  rcases s.ensureFresh_cases with ⟨h, e⟩ | ⟨h, e⟩ <;> rw [e]
  · exact State.ensureFresh_of_fresh h
  · exact State.ensureFresh_of_dirty h

theorem State.withMem_passState (s : State) (m : Memory) : (s.withMem m).passState = s.passState.withMem m := by
  by_cases hflat : s.strat = .flatField
  · rw [State.passState_flatField hflat, State.passState_flatField (s := s.withMem m) hflat]
  · rw [State.passState_of_ne hflat, State.passState_of_ne (s := s.withMem m) hflat, State.withMem_ensureFresh]

/-- The memory has no bearing on what a pass leaves outside it. -/
theorem State.withMem_applyPass (s : State) (m : Memory) :
    (s.withMem m).applyPass = s.applyPass.withMem (s.withMem m).applyPass.mem := by
  have hlocal : ∀ u : State, (u.withMem m).localPass = u.localPass.withMem (u.withMem m).localPass.mem := fun u => by
    have hoverlap : (u.withMem m).partialOverlap = u.partialOverlap := rfl
    rw [State.localPass, State.localPass, hoverlap]
    split <;> rfl
  have hstrat : (s.withMem m).strat = s.strat := rfl
  rw [State.applyPass, State.applyPass, hstrat, State.withMem_ensureFresh]
  split
  · rfl
  · exact hlocal _
  · exact hlocal _

/-- `m` has the bytes of the state's memory in both footprints. -/
def State.FootprintsAgree (s : State) (m : Memory) : Prop :=
  ∀ a, s.dst.covers a ∨ s.src.covers a → m.read a = s.mem.read a

/-- Then the working copies agree within the frame. -/
theorem State.FootprintsAgree.workingCopy {s : State} {m : Memory} (e : s.FootprintsAgree m) (hready : s.LocalReady) :
    s.workingCopy.AgreesOn s.dst.width s.dst.height (s.withMem m).workingCopy := by
  obtain ⟨hwidth, hheight, -⟩ := hready
  exact fun x y c hx hy hc => e _ (.inr ⟨⟨x, y, c⟩, hwidth ▸ hx, hheight ▸ hy, hc, rfl⟩)

/-- So the output byte of a visit is the same. -/
theorem State.FootprintsAgree.localByte {s : State} {m : Memory} (e : s.FootprintsAgree m) (hready : s.LocalReady)
    {p : Site} (hp : p ∈ s.scopeSites) (source : Byte) : (s.withMem m).localByte p source = s.localByte p source := by
  have hcopy := e.workingCopy hready
  obtain ⟨-, hy, hx⟩ := State.mem_scopeSites.1 hp
  have hc : p.c ≤ 3 := by have := State.scopeSites_lane hp; omega
  have href : (s.withMem m).reference p = s.reference p := hcopy.blur_eq _ _ hx hy hc
  have hsum : laneSum (s.withMem m).dst.width (s.withMem m).dst.height (s.withMem m).workingCopy p.c =
    laneSum s.dst.width s.dst.height s.workingCopy p.c := hcopy.laneSum_eq hc
  rw [State.localByte, State.localByte, href, hsum, State.withMem_passState]
  rfl

/-- And the pass leaves the same in-scope bytes. -/
theorem State.FootprintsAgree.read_applyPass {s : State} {m : Memory} (e : s.FootprintsAgree m)
    (hnone : s.applyError = none) (hwf : s.mem.wf = true) (hwf' : m.wf = true) {a : Nat} (ha : s.InScope a) :
    (s.withMem m).applyPass.mem.read a = s.applyPass.mem.read a := by
  obtain ⟨p, hp, rfl⟩ := State.inScope_iff.1 ha
  have hdst : m.read (s.dst.addr p) = s.mem.read (s.dst.addr p) := e _ (.inl (State.covers_dst hp))
  by_cases hlog : s.strat = .log
  · have husable := State.usable_of_applyError hnone
    rw [State.read_applyPass_log hlog husable hwf ha, State.read_applyPass_log (s := s.withMem m) hlog husable hwf' ha,
      State.withMem_ensureFresh]
    exact congrArg s.ensureFresh.lutByte hdst
  · have hready := State.localReady_of_applyError hlog hnone
    by_cases hapart : s.BuffersApart
    · have hsrc : m.read (s.src.addr p) = s.mem.read (s.src.addr p) := e _ (.inr (State.covers_src hready hp))
      calc (s.withMem m).applyPass.mem.read (s.dst.addr p)
          = (s.withMem m).localByte p (m.read (s.src.addr p)) :=
            State.read_applyPass_apart (s := s.withMem m) hlog hready hapart hwf' hp
        _ = s.localByte p (s.mem.read (s.src.addr p)) := by rw [e.localByte hready hp, hsrc]
        _ = s.applyPass.mem.read (s.dst.addr p) := (State.read_applyPass_apart hlog hready hapart hwf hp).symm
    · exact (State.read_applyPass_partial (s := s.withMem m) hlog hready hapart hwf' hp).trans
        (State.read_applyPass_partial hlog hready hapart hwf hp).symm

theorem State.covers_of_inScope {s : State} {a : Nat} (ha : s.InScope a) : s.dst.covers a := by
  obtain ⟨p, hp, rfl⟩ := State.inScope_iff.1 ha
  exact State.covers_dst hp

/-- Settles O48: a failing `APPLY` leaves both memories; past validation the bytes of a pass depend on the footprints, and
the rest of the state not on the memory at all. -/
theorem applyReadsOnlyTheFootprints : Obligations.ApplyReadsOnlyTheFootprints := by
  intro s t m hwf hwf' e hexec
  have hcheck : (s.withMem m).applyError = s.applyError := rfl
  rcases execApply_cases s with ⟨k, herror, hexec'⟩ | ⟨hnone, hexec'⟩
  · obtain rfl := Host.Outcome.next.inj (hexec'.symm.trans hexec)
    exact ⟨m, exec_apply_of_some (hcheck.trans herror), fun a ha => e a (.inl (State.covers_of_inScope ha)),
      fun _ _ => rfl⟩
  · obtain rfl := Host.Outcome.next.inj (hexec'.symm.trans hexec)
    refine ⟨(s.withMem m).applyPass.mem, ?_, fun a ha => State.FootprintsAgree.read_applyPass e hnone hwf hwf' ha,
      fun a ha => State.applyPass_frame (s := s.withMem m) hwf' ha⟩
    refine (exec_apply_of_none (hcheck.trans hnone)).trans (congrArg Host.Outcome.next ?_)
    exact congrArg State.done (s.withMem_applyPass m)

end Sys2Proof.Machine
end

section
/-! PROOFS. What a command may write (R21, R66) and what it may not see (R31): each register has its writers, only `APPLY`
writes memory, and no command depends on the contents of a stale table. -/

namespace Sys2Proof.Machine

/-! ## The writers of the parameter and descriptor registers and of memory (R21) -/

/-- Between `s` and `t` the command `i` changed a register only if it is the register's setter, and memory only if it is
`APPLY`. A field that nothing is said of is kept. -/
structure State.WrittenBy (s t : State) (i : Instr) : Prop where
  /-- `SETSTRAT` writes `STRAT`. -/
  strat : t.strat ≠ s.strat → ∃ v, i = .setstrat v := by simp
  /-- `SETSCOPE` writes `SCOPE`. -/
  scope : t.scope ≠ s.scope → ∃ v, i = .setscope v := by simp
  /-- `SETBASE` writes `BASE`. -/
  base : t.base ≠ s.base → ∃ v, i = .setbase v := by simp
  /-- `SETDELTA` writes `DELTA`. -/
  delta : t.delta ≠ s.delta → ∃ v, i = .setdelta v := by simp
  /-- `SETA` writes `CA`. -/
  ca : t.ca ≠ s.ca → ∃ v, i = .seta v := by simp
  /-- `SETB` writes `CB`. -/
  cb : t.cb ≠ s.cb → ∃ v, i = .setb v := by simp
  /-- `SETWIN` writes `WIN`. -/
  win : t.win ≠ s.win → ∃ ww wh, i = .setwin ww wh := by simp
  /-- `SETDSTBASE` writes `DSTBASE`. -/
  dstBase : t.dstBase ≠ s.dstBase → ∃ v, i = .setdstbase v := by simp
  /-- `SETDSTDIM` writes `DSTDIM`. -/
  dstDim : t.dstDim ≠ s.dstDim → ∃ w h, i = .setdstdim w h := by simp
  /-- `SETDSTSTRIDE` writes `DSTSTRIDE`. -/
  dstStride : t.dstStride ≠ s.dstStride → ∃ v, i = .setdststride v := by simp
  /-- `SETSRCBASE` writes `SRCBASE`. -/
  srcBase : t.srcBase ≠ s.srcBase → ∃ v, i = .setsrcbase v := by simp
  /-- `SETSRCDIM` writes `SRCDIM`. -/
  srcDim : t.srcDim ≠ s.srcDim → ∃ w h, i = .setsrcdim w h := by simp
  /-- `SETSRCSTRIDE` writes `SRCSTRIDE`. -/
  srcStride : t.srcStride ≠ s.srcStride → ∃ v, i = .setsrcstride v := by simp
  /-- `APPLY` writes memory. -/
  mem : t.mem ≠ s.mem → i = .apply := by simp

theorem State.writtenBy_raise (s : State) (e : ErrorCode) (i : Instr) : s.WrittenBy (s.raise e) i := {}

theorem State.writtenBy_ensureFresh (s : State) (i : Instr) : s.WrittenBy s.ensureFresh i := {}

/-- The response is no register. -/
theorem State.WrittenBy.respond {s t : State} {i : Instr} (h : s.WrittenBy t i) (st : Byte) (d : Word) :
    s.WrittenBy (t.respond st d) i := { h with }

/-- The setters' shared step writes no more than its register. -/
theorem State.WrittenBy.configure {s : State} {ok : Bool} {write : State → State} {i : Instr}
    (h : s.WrittenBy (write s) i) : s.WrittenBy (s.configure ok write) i := by
  rcases s.configure_cases ok write with ⟨-, e⟩ | ⟨-, e⟩ <;> rw [e]
  · exact { h with }
  · exact s.writtenBy_raise _ i

/-- A pass writes memory and, by the rebuild step, what that writes. -/
theorem State.writtenBy_applyPass (s : State) : s.WrittenBy s.applyPass .apply := by
  obtain ⟨f, hpass⟩ := s.applyPass_eq
  rw [hpass]
  split
  · exact {}
  · exact { s.writtenBy_ensureFresh .apply with mem := fun _ => rfl }

/-- Every command writes only what is its own to write. -/
theorem exec_writtenBy (i : Instr) (s : State) : ∃ t, exec i s = .next t ∧ s.WrittenBy t i := by
  cases i with
  | setstrat v =>
    rcases le_or_gt v.toNat 2 with hv | hv
    · obtain ⟨st, rfl⟩ := Strategy.exists_word_eq hv
      exact ⟨_, exec_setstrat_word st s, {}⟩
    · exact ⟨_, exec_setstrat_of_gt hv s, s.writtenBy_raise _ _⟩
  | setscope v =>
    rcases le_or_gt v.toNat 7 with hv | hv
    · exact ⟨_, exec_setscope_of_le hv s, {}⟩
    · exact ⟨_, exec_setscope_of_gt hv s, s.writtenBy_raise _ _⟩
  | setbase v => exact ⟨_, rfl, State.WrittenBy.configure {}⟩
  | setdelta v => exact ⟨_, rfl, State.WrittenBy.configure {}⟩
  | seta v => exact ⟨_, rfl, State.WrittenBy.configure {}⟩
  | setb v => exact ⟨_, rfl, State.WrittenBy.configure {}⟩
  | setwin ww wh => exact ⟨_, rfl, State.WrittenBy.configure {}⟩
  | setdstbase v => exact ⟨_, rfl, {}⟩
  | setdstdim w h => exact ⟨_, rfl, {}⟩
  | setdststride v => exact ⟨_, rfl, {}⟩
  | setsrcbase v => exact ⟨_, rfl, {}⟩
  | setsrcdim w h => exact ⟨_, rfl, {}⟩
  | setsrcstride v => exact ⟨_, rfl, {}⟩
  | markdirty => exact ⟨_, rfl, {}⟩
  | fresh => exact ⟨_, exec_fresh s, (s.writtenBy_ensureFresh _).respond _ _⟩
  | lutrd idx => exact ⟨_, exec_lutrd idx s, (s.writtenBy_ensureFresh _).respond _ _⟩
  | rdreg idx =>
    cases hreg : s.readReg idx with
    | none => exact ⟨_, exec_rdreg_of_missing hreg, s.writtenBy_raise _ _⟩
    | some v => exact ⟨_, exec_rdreg_of_some hreg, {}⟩
  | clrerr => exact ⟨_, rfl, {}⟩
  | apply =>
    rcases execApply_cases s with ⟨e, -, hexec⟩ | ⟨-, hexec⟩
    · exact ⟨_, hexec, s.writtenBy_raise _ _⟩
    · exact ⟨_, hexec, s.writtenBy_applyPass.respond _ _⟩

theorem exec_next_writtenBy {i : Instr} {s t : State} (hexec : exec i s = .next t) : s.WrittenBy t i := by
  obtain ⟨t', hexec', hwritten⟩ := exec_writtenBy i s
  obtain rfl := Host.Outcome.next.inj (hexec.symm.trans hexec')
  exact hwritten

/-! ## The writers of the table, of DIRTY and of the error record -/

/-- A caller leaves the table of the rebuild step. -/
theorem exec_caller_lut {i : Instr} {s t : State} (h : s.callsEnsureFresh i = true) (hexec : exec i s = .next t) :
    t.lut = s.ensureFresh.lut := by
  cases i with
  | fresh =>
    obtain rfl := Host.Outcome.next.inj hexec
    rfl
  | lutrd idx =>
    obtain rfl := Host.Outcome.next.inj hexec
    rfl
  | apply =>
    obtain ⟨hstrat, hnone⟩ : s.strat ≠ .flatField ∧ s.applyError = none := of_decide_eq_true h
    obtain ⟨f, hpass⟩ := s.applyPass_eq
    rw [if_neg hstrat] at hpass
    obtain rfl := Host.Outcome.next.inj ((exec_apply_of_none hnone).symm.trans hexec)
    rw [State.done_lut, hpass]
  | _ => exact absurd h Bool.false_ne_true

/-- Only a caller that finds the table stale moves RBCNT or the table. -/
theorem exec_table_writers {i : Instr} {s t : State} (hexec : exec i s = .next t)
    (hchange : t.rbcnt ≠ s.rbcnt ∨ t.lut ≠ s.lut) : s.callsEnsureFresh i = true ∧ s.status.dirty = true := by
  cases hcall : s.callsEnsureFresh i with
  | false =>
    obtain ⟨hlut, hrbcnt, -⟩ := exec_next_keepsTable hcall hexec
    exact absurd hchange (by simp [hlut, hrbcnt])
  | true =>
    refine ⟨rfl, by_contra fun hne => ?_⟩
    obtain ⟨hrbcnt, -⟩ := exec_caller hcall hexec
    have hlut := exec_caller_lut hcall hexec
    rw [State.ensureFresh_of_fresh (Bool.eq_false_iff.2 hne)] at hrbcnt hlut
    exact absurd hchange (by simp [hlut, hrbcnt])

/-- DIRTY after a command: a caller clears it, any other command keeps it or marks. -/
theorem exec_dirty {i : Instr} {s t : State} (hexec : exec i s = .next t) :
    t.status.dirty = (!s.callsEnsureFresh i && (s.status.dirty || marksDirty i)) := by
  cases hcall : s.callsEnsureFresh i with
  | false => simpa using (exec_next_keepsTable hcall hexec).dirty
  | true => simpa using (exec_caller hcall hexec).2

/-- The error fields move with a command that fails, and with `CLRERR`. -/
theorem exec_errorRecord_writers {i : Instr} {s t : State} (hexec : exec i s = .next t)
    (hchange : t.status ≠ { s.status with dirty := t.status.dirty }) :
    i = .clrerr ∨ ∃ k : Byte, k ≠ 0#8 ∧ t.responses = s.responses ++ [{ status := k, data := 0#32 }] := by
  rcases exec_cases i s with ⟨e, hexec'⟩ | ⟨u, d, hexec', -, -, -, hstatus, -⟩ <;>
    obtain rfl := Host.Outcome.next.inj (hexec'.symm.trans hexec)
  · exact .inr ⟨_, e.statusByte_bounds.2, rfl⟩
  · exact .inl (by_contra fun hne => hchange (hstatus hne))

/-- Settles O41: register by register. -/
theorem registersHaveTheirWriters : Obligations.RegistersHaveTheirWriters := by
  intro s t i hexec
  have h := exec_next_writtenBy hexec
  have hdirty := exec_dirty hexec
  refine ⟨h.strat, h.scope, h.base, h.delta, h.ca, h.cb, h.win, h.dstBase, h.dstDim, h.dstStride, h.srcBase, h.srcDim,
    h.srcStride, exec_table_writers hexec, h.mem, rfl, fun hfresh hset => ?set, fun hstale hclear => ?clear,
    fun hchange => exec_errorRecord_writers hexec fun hkept => ?errors⟩
  case set =>
    rw [hset, hfresh, Bool.false_or, eq_comm, Bool.and_eq_true] at hdirty
    exact hdirty.2
  case clear =>
    rw [hclear, hstale, Bool.true_or, Bool.and_true, eq_comm, Bool.not_eq_false'] at hdirty
    exact hdirty
  case errors =>
    rw [hkept] at hchange
    simp at hchange

/-! ## The bytes a command writes (R66) -/

/-- Settles O47: only `APPLY` writes memory, only past validation, and only in scope. -/
theorem commandsWriteOnlyTheScope : Obligations.CommandsWriteOnlyTheScope := by
  intro s t w rest a hin hwf hstep hread
  rw [step_command hin] at hstep
  cases hw : decode w with
  | none =>
    obtain rfl := Host.Outcome.next.inj ((execWord_none hw _).symm.trans hstep)
    exact absurd rfl hread
  | some i =>
    rw [execWord_some hw] at hstep
    obtain rfl := (exec_next_writtenBy hstep).mem fun hmem => hread (by rw [hmem])
    refine ⟨rfl, ?_⟩
    rcases execApply_cases { s with inbox := rest } with ⟨e, -, hexec⟩ | ⟨-, hexec⟩ <;>
      obtain rfl := Host.Outcome.next.inj (hexec.symm.trans hstep)
    · exact absurd rfl hread
    · have hscope : s.InScope a := by_contra fun ha =>
        hread (State.applyPass_frame (s := { s with inbox := rest }) hwf ha)
      obtain ⟨p, hx, hy, hc, ha⟩ := hscope
      exact ⟨p.x, p.y, p.c, hx, hy, Nat.le_of_lt_succ (BitVec.lt_of_getLsbD hc), hc, ha⟩

/-! ## A stale table is not seen (R31) -/

/-- The table replaced. -/
def State.withLut (s : State) (l : Option Lut) : State := { s with lut := l }

/-- From `s` and from `s` with the table `l` the command `i` does the same, and the table `l` is kept while DIRTY is set. -/
def State.BlindTo (s : State) (l : Option Lut) (i : Instr) : Prop :=
  ∃ t : State, exec i s = .next t ∧ exec i (s.withLut l) = .next (t.withLut (if t.status.dirty then l else t.lut))

/-- A command that leaves the table stale keeps it. -/
theorem State.blindTo_of_stale {s t : State} {l : Option Lut} {i : Instr} (hexec : exec i s = .next t)
    (hexec' : exec i (s.withLut l) = .next (t.withLut l)) (hstale : t.status.dirty = true) : s.BlindTo l i :=
  ⟨t, hexec, by rw [if_pos hstale]; exact hexec'⟩

/-- A command that leaves the table fresh has rebuilt it, from the same parameters. -/
theorem State.blindTo_of_fresh {s t : State} {l : Option Lut} {i : Instr} (hexec : exec i s = .next t)
    (hexec' : exec i (s.withLut l) = .next t) (hfresh : t.status.dirty = false) : s.BlindTo l i :=
  ⟨t, hexec, by rw [hfresh, if_neg Bool.false_ne_true]; exact hexec'⟩

theorem State.blindTo_of_raise {s : State} {l : Option Lut} {i : Instr} {e : ErrorCode} (hstale : s.status.dirty = true)
    (hexec : exec i s = .next (s.raise e)) (hexec' : exec i (s.withLut l) = .next ((s.withLut l).raise e)) :
    s.BlindTo l i :=
  State.blindTo_of_stale hexec hexec' ((Status.record_dirty _ e).trans hstale)

/-- A setter, accepted or not, leaves the table stale. -/
theorem State.blindTo_of_configure {s : State} {l : Option Lut} {i : Instr} {ok : Bool} {write : State → State}
    (hstale : s.status.dirty = true) (hwrite : write (s.withLut l) = (write s).withLut l)
    (hexec : ∀ u, exec i u = .next (u.configure ok write)) : s.BlindTo l i := by
  cases ok with
  | false => exact State.blindTo_of_raise hstale (hexec s) (hexec _)
  | true =>
    refine State.blindTo_of_stale (hexec s) ((hexec _).trans ?_) rfl
    rw [State.configure_true, State.configure_true, hwrite]
    rfl

/-- The rebuild step leaves nothing of a stale table. -/
theorem State.withLut_ensureFresh {s : State} (hstale : s.status.dirty = true) (l : Option Lut) :
    (s.withLut l).ensureFresh = s.ensureFresh := by
  rw [State.ensureFresh_of_dirty hstale, State.ensureFresh_of_dirty (s := s.withLut l) hstale]
  rfl

/-- Under a strategy with a table the pass rebuilds it first. -/
theorem State.withLut_applyPass {s : State} (hstale : s.status.dirty = true) (hstrat : s.strat ≠ .flatField)
    (l : Option Lut) : (s.withLut l).applyPass = s.applyPass := by
  have hstrat' : (s.withLut l).strat = s.strat := rfl
  rw [State.applyPass, State.applyPass, hstrat', State.withLut_ensureFresh hstale]
  cases h : s.strat with
  | log => rfl
  | flatField => exact absurd h hstrat
  | contrast => rfl

theorem State.blindTo_apply {s : State} (hstale : s.status.dirty = true) (l : Option Lut) : s.BlindTo l .apply := by
  have hcheck : (s.withLut l).applyError = s.applyError := rfl
  rcases execApply_cases s with ⟨e, herror, hexec⟩ | ⟨hnone, hexec⟩
  · exact State.blindTo_of_raise hstale hexec (exec_apply_of_some (hcheck.trans herror))
  · by_cases hstrat : s.strat = .flatField
    · have hcaller : s.callsEnsureFresh .apply = false := by simp [State.callsEnsureFresh, hstrat]
      have hdirty : s.applyPass.done.status.dirty = true :=
        ((exec_next_keepsTable hcaller hexec).dirty.trans (Bool.or_false _)).trans hstale
      have hexec' := exec_apply_withTable hstrat hexec l true
      have htable (u : State) (hu : u.status.dirty = true) : u.withTable l true = u.withLut l := by
        rw [State.withTable, ← hu]; rfl
      rw [htable s hstale, htable _ hdirty] at hexec'
      exact State.blindTo_of_stale hexec hexec' hdirty
    · have hcaller : s.callsEnsureFresh .apply = true := decide_eq_true ⟨hstrat, hnone⟩
      refine State.blindTo_of_fresh hexec ?_ (exec_caller hcaller hexec).2
      rw [exec_apply_of_none (hcheck.trans hnone), State.withLut_applyPass hstale hstrat]

/-- Settles O32: command by command; those that read the table rebuild it first. -/
theorem staleTableIsUnobservable : Obligations.StaleTableIsUnobservable := by
  intro s l i hstale
  show s.BlindTo l i
  cases i with
  | setstrat v =>
    rcases le_or_gt v.toNat 2 with hv | hv
    · obtain ⟨st, rfl⟩ := Strategy.exists_word_eq hv
      exact State.blindTo_of_stale (exec_setstrat_word st s) (exec_setstrat_word st _) rfl
    · exact State.blindTo_of_raise hstale (exec_setstrat_of_gt hv s) (exec_setstrat_of_gt hv _)
  | setscope v =>
    rcases le_or_gt v.toNat 7 with hv | hv
    · exact State.blindTo_of_stale (exec_setscope_of_le hv s) (exec_setscope_of_le hv _) rfl
    · exact State.blindTo_of_raise hstale (exec_setscope_of_gt hv s) (exec_setscope_of_gt hv _)
  | setbase v => exact State.blindTo_of_configure hstale rfl fun _ => rfl
  | setdelta v => exact State.blindTo_of_configure hstale rfl fun _ => rfl
  | seta v => exact State.blindTo_of_configure hstale rfl fun _ => rfl
  | setb v => exact State.blindTo_of_configure hstale rfl fun _ => rfl
  | setwin ww wh => exact State.blindTo_of_configure hstale rfl fun _ => rfl
  | setdstbase v => exact State.blindTo_of_stale rfl rfl hstale
  | setdstdim w h => exact State.blindTo_of_stale rfl rfl hstale
  | setdststride v => exact State.blindTo_of_stale rfl rfl hstale
  | setsrcbase v => exact State.blindTo_of_stale rfl rfl hstale
  | setsrcdim w h => exact State.blindTo_of_stale rfl rfl hstale
  | setsrcstride v => exact State.blindTo_of_stale rfl rfl hstale
  | markdirty => exact State.blindTo_of_stale rfl rfl rfl
  | fresh =>
    refine State.blindTo_of_fresh (exec_fresh s) ?_ s.ensureFresh_dirty
    rw [exec_fresh, State.withLut_ensureFresh hstale]
  | lutrd idx =>
    refine State.blindTo_of_fresh (exec_lutrd idx s) ?_ s.ensureFresh_dirty
    rw [exec_lutrd, State.withLut_ensureFresh hstale]
  | rdreg idx =>
    have hsame : (s.withLut l).readReg idx = s.readReg idx := rfl
    cases hreg : s.readReg idx with
    | none => exact State.blindTo_of_raise hstale (exec_rdreg_of_missing hreg) (exec_rdreg_of_missing (hsame.trans hreg))
    | some v =>
      exact State.blindTo_of_stale (exec_rdreg_of_some hreg) (exec_rdreg_of_some (hsame.trans hreg)) hstale
  | clrerr => exact State.blindTo_of_stale rfl rfl hstale
  | apply => exact State.blindTo_apply hstale l

end Sys2Proof.Machine
end
